-- ==== Sys2Proof/Word.lean ====
section
/-! DEFINITION. The widths of the machine's data (spec/00_scope.md R5, R7): every value the spec treats as bits is a
bit vector of the width the spec gives it, bit 0 the least significant. -/

namespace Sys2Proof

/-- A general register, a memory byte, the delay timer, an immediate `nn`: XLEN = 8 bits (R5). -/
abbrev Byte := BitVec 8

/-- PC, I, a call-stack entry, an instruction word: ALEN = ILEN = 16 bits (R5). -/
abbrev Word := BitVec 16

/-- A register index `x`, `y`, a row count `n`, a family selector, a key index: 4 bits (R71). -/
abbrev Nibble := BitVec 4

/-- The address operand `nnn`: 12 bits (R71). -/
abbrev Addr := BitVec 12

end Sys2Proof
end

