-- ==== Sys2Proof/Syntax.lean ====
section
/-! DEFINITION. The instructions (spec/30_encoding.md R76): one constructor per row of spec/opcode_table.json, in its order.
An operand field is a bit vector of the field's width (R71, R73), so no index, immediate, address or count can be out of range. -/

namespace Sys2Proof

/-- The 27 instructions of R76. -/
inductive Instr where
  /-- CLS, `0-E0`: clear the display. -/
  | cls
  /-- RET, `0-EE`: return from subroutine. -/
  | ret
  /-- JP nnn, `1nnn`. -/
  | jp (nnn : Addr)
  /-- CALL nnn, `2nnn`. -/
  | call (nnn : Addr)
  /-- SE Vx, nn, `3xkk`: skip if equal. -/
  | se (x : Nibble) (nn : Byte)
  /-- SNE Vx, nn, `4xkk`: skip if not equal. -/
  | sne (x : Nibble) (nn : Byte)
  /-- LD Vx, nn, `6xkk`: load immediate. -/
  | ld (x : Nibble) (nn : Byte)
  /-- ADD Vx, nn, `7xkk`: add immediate, no flag. -/
  | add (x : Nibble) (nn : Byte)
  /-- MOV Vx, Vy, `8xy0`. -/
  | mov (x y : Nibble)
  /-- AND Vx, Vy, `8xy2`. -/
  | and (x y : Nibble)
  /-- XOR Vx, Vy, `8xy3`. -/
  | xor (x y : Nibble)
  /-- ADDR Vx, Vy, `8xy4`: add with carry out. -/
  | addr (x y : Nibble)
  /-- SUB Vx, Vy, `8xy5`: subtract with not-borrow out. -/
  | sub (x y : Nibble)
  /-- SHR Vx, `8x-6`: logical shift right by one. -/
  | shr (x : Nibble)
  /-- LDI nnn, `Annn`: set the address register. -/
  | ldi (nnn : Addr)
  /-- RND Vx, nn, `Cxkk`: random byte AND immediate. -/
  | rnd (x : Nibble) (nn : Byte)
  /-- DRW Vx, Vy, n, `Dxyn`: draw a sprite of n rows. -/
  | drw (x y n : Nibble)
  /-- SKP Vx, `Ex9E`: skip if the key is held. -/
  | skp (x : Nibble)
  /-- SKNP Vx, `ExA1`: skip if the key is not held. -/
  | sknp (x : Nibble)
  /-- GETDT Vx, `Fx07`: read the delay timer. -/
  | getdt (x : Nibble)
  /-- SETDT Vx, `Fx15`: write the delay timer. -/
  | setdt (x : Nibble)
  /-- SETST Vx, `Fx18`: set sound timer, a no-operation. -/
  | setst (x : Nibble)
  /-- ADDI Vx, `Fx1E`: add to the address register. -/
  | addi (x : Nibble)
  /-- FONT Vx, `Fx29`: address of a glyph. -/
  | font (x : Nibble)
  /-- BCD Vx, `Fx33`: store three decimal digits. -/
  | bcd (x : Nibble)
  /-- DUMP Vx, `Fx55`: store V0..Vx. -/
  | dump (x : Nibble)
  /-- LOAD Vx, `Fx65`: load V0..Vx. -/
  | load (x : Nibble)
  deriving DecidableEq, Repr

end Sys2Proof
end

