-- ==== Sys2Proof/WellFormed.lean ====
section
/-! DEFINITION. Well-formedness. The operand fields of an instruction carry their ranges in their types, so every term of
`Instr` is an instruction of the hardware (spec/70_reset_and_hazards.md R222: each is defined for all 2^k values of its
fields). What can be ill-formed is a WORD as an assembler emits it: ignored bits that are not 0 (spec/30_encoding.md R75). -/

namespace Sys2Proof

/-- Every instruction is well-formed: named constructor by constructor, so that a new one must be judged here. -/
def wellFormed : Instr → Bool
  | .cls | .ret | .jp _ | .call _ | .se _ _ | .sne _ _ | .ld _ _ | .add _ _ | .mov _ _ | .and _ _ | .xor _ _
  | .addr _ _ | .sub _ _ | .shr _ | .ldi _ | .rnd _ _ | .drw _ _ _ | .skp _ | .sknp _ | .getdt _ | .setdt _
  | .setst _ | .addi _ | .font _ | .bcd _ | .dump _ | .load _ => true

/-- R75 a: bits 11:8 of a word of family 0 are 0, as assemblers emit them. -/
def plainZ (w : Word) : Bool :=
  w.extractLsb' 12 4 != 0x0#4 || w.extractLsb' 8 4 == 0x0#4

/-- R75 b: bits 7:4 of a SHR word (family 8, low nibble 6) are 0, as assemblers emit them. -/
def plainShr (w : Word) : Bool :=
  !(w.extractLsb' 12 4 == 0x8#4 && w.extractLsb' 0 4 == 0x6#4) || w.extractLsb' 4 4 == 0x0#4

/-- A word in the form assemblers emit: no ignored bit set (R75). The decoder accepts other words too (D3). -/
def plainWord (w : Word) : Bool :=
  plainZ w && plainShr w

end Sys2Proof
end

