-- ==== Sys2Proof/Decode.lean ====
section
/-! DEFINITION. From bytes to instructions and back (spec/30_encoding.md R70 to R80). The numeric opcodes are the customary
CHIP-8 assignment, which the spec adopts by decision D1 (log 8). -/

namespace Sys2Proof

/-- Why bytes are no instruction. -/
inductive Reject where
  /-- Fewer than the two bytes of a word (R70). -/
  | short
  /-- No instruction in the family `op` (families 5, 9, B; R77). -/
  | family (op : Nibble)
  /-- The family is discriminated by the low byte, and `nn` is none of its discriminants (families 0, E, F; R78). -/
  | lowByte (op : Nibble) (nn : Byte)
  /-- Family 8, and the low nibble `n` is none of its discriminants (R78). -/
  | lowNibble (op : Nibble) (n : Nibble)
  deriving DecidableEq, Repr

/-- `op` = w[15:12], the family selector (R71). -/
def opField (w : Word) : Nibble := w.extractLsb' 12 4

/-- `x` = w[11:8] (R71). -/
def xField (w : Word) : Nibble := w.extractLsb' 8 4

/-- `y` = w[7:4] (R71). -/
def yField (w : Word) : Nibble := w.extractLsb' 4 4

/-- `n` = w[3:0] (R71). -/
def nField (w : Word) : Nibble := w.extractLsb' 0 4

/-- `nn` = w[7:0] (R71). -/
def nnField (w : Word) : Byte := w.extractLsb' 0 8

/-- `nnn` = w[11:0] (R71). -/
def nnnField (w : Word) : Addr := w.extractLsb' 0 12

/-- Family 0 (R77). -/
def decodeFamily0 (w : Word) : Except Reject Instr :=
  match nnField w with
  | 0xE0#8 => .ok .cls
  | 0xEE#8 => .ok .ret
  | nn => .error (.lowByte 0x0#4 nn)

/-- Family 8 (R77). -/
def decodeFamily8 (w : Word) : Except Reject Instr :=
  match nField w with
  | 0x0#4 => .ok (.mov (xField w) (yField w))
  | 0x2#4 => .ok (.and (xField w) (yField w))
  | 0x3#4 => .ok (.xor (xField w) (yField w))
  | 0x4#4 => .ok (.addr (xField w) (yField w))
  | 0x5#4 => .ok (.sub (xField w) (yField w))
  | 0x6#4 => .ok (.shr (xField w))
  | n => .error (.lowNibble 0x8#4 n)

/-- Family E (R77). -/
def decodeFamilyE (w : Word) : Except Reject Instr :=
  match nnField w with
  | 0x9E#8 => .ok (.skp (xField w))
  | 0xA1#8 => .ok (.sknp (xField w))
  | nn => .error (.lowByte 0xE#4 nn)

/-- Family F (R77). -/
def decodeFamilyF (w : Word) : Except Reject Instr :=
  match nnField w with
  | 0x07#8 => .ok (.getdt (xField w))
  | 0x15#8 => .ok (.setdt (xField w))
  | 0x18#8 => .ok (.setst (xField w))
  | 0x1E#8 => .ok (.addi (xField w))
  | 0x29#8 => .ok (.font (xField w))
  | 0x33#8 => .ok (.bcd (xField w))
  | 0x55#8 => .ok (.dump (xField w))
  | 0x65#8 => .ok (.load (xField w))
  | nn => .error (.lowByte 0xF#4 nn)

/-- `decode` of R77: total on the 65536 words. -/
def decodeWord (w : Word) : Except Reject Instr :=
  match opField w with
  | 0x0#4 => decodeFamily0 w
  | 0x1#4 => .ok (.jp (nnnField w))
  | 0x2#4 => .ok (.call (nnnField w))
  | 0x3#4 => .ok (.se (xField w) (nnField w))
  | 0x4#4 => .ok (.sne (xField w) (nnField w))
  | 0x6#4 => .ok (.ld (xField w) (nnField w))
  | 0x7#4 => .ok (.add (xField w) (nnField w))
  | 0x8#4 => decodeFamily8 w
  | 0xA#4 => .ok (.ldi (nnnField w))
  | 0xC#4 => .ok (.rnd (xField w) (nnField w))
  | 0xD#4 => .ok (.drw (xField w) (yField w) (nField w))
  | 0xE#4 => decodeFamilyE w
  | 0xF#4 => decodeFamilyF w
  | op => .error (.family op)

/-- The word of two consecutive bytes, most significant byte first (spec/20_memory.md R50). -/
def wordOfBytes (hi lo : Byte) : Word := hi ++ lo

/-- The two bytes of a word as memory holds them, most significant byte first (R50, R70). -/
def bytesOfWord (w : Word) : List Byte := [w.extractLsb' 8 8, w.extractLsb' 0 8]

/-- The instruction at the head of a list of bytes, with the rest of the list. Total on any bytes. -/
def decode : List Byte → Except Reject (Instr × List Byte)
  | hi :: lo :: rest =>
    match decodeWord (wordOfBytes hi lo) with
    | .ok i => .ok (i, rest)
    | .error r => .error r
  | _ => .error .short

/-- Formats Z, X, XK, XY, XYN and A of R72, laid out from the family down; ignored bits are 0 (R75). -/
def encodeX (op x : Nibble) (nn : Byte) : Word := op ++ x ++ nn

/-- Formats XY and XYN of R72. -/
def encodeXYN (op x y n : Nibble) : Word := op ++ x ++ y ++ n

/-- Format A of R72. -/
def encodeA (op : Nibble) (nnn : Addr) : Word := op ++ nnn

/-- The word an assembler emits for an instruction (R72, R75, R76). -/
def encode : Instr → Word
  | .cls => encodeX 0x0 0x0 0xE0
  | .ret => encodeX 0x0 0x0 0xEE
  | .jp nnn => encodeA 0x1 nnn
  | .call nnn => encodeA 0x2 nnn
  | .se x nn => encodeX 0x3 x nn
  | .sne x nn => encodeX 0x4 x nn
  | .ld x nn => encodeX 0x6 x nn
  | .add x nn => encodeX 0x7 x nn
  | .mov x y => encodeXYN 0x8 x y 0x0
  | .and x y => encodeXYN 0x8 x y 0x2
  | .xor x y => encodeXYN 0x8 x y 0x3
  | .addr x y => encodeXYN 0x8 x y 0x4
  | .sub x y => encodeXYN 0x8 x y 0x5
  | .shr x => encodeXYN 0x8 x 0x0 0x6
  | .ldi nnn => encodeA 0xA nnn
  | .rnd x nn => encodeX 0xC x nn
  | .drw x y n => encodeXYN 0xD x y n
  | .skp x => encodeX 0xE x 0x9E
  | .sknp x => encodeX 0xE x 0xA1
  | .getdt x => encodeX 0xF x 0x07
  | .setdt x => encodeX 0xF x 0x15
  | .setst x => encodeX 0xF x 0x18
  | .addi x => encodeX 0xF x 0x1E
  | .font x => encodeX 0xF x 0x29
  | .bcd x => encodeX 0xF x 0x33
  | .dump x => encodeX 0xF x 0x55
  | .load x => encodeX 0xF x 0x65

/-- A row of the opcode map of R76: `w` is the instruction iff `w &&& mask = pattern`. -/
structure OpcodeRow where
  mnemonic : String
  mask : Word
  pattern : Word
  deriving DecidableEq, Repr

/-- The opcode map of R76, in its order, its columns copied row by row: it is not computed from the decoder. -/
def opcodeMap : List OpcodeRow :=
  [⟨"CLS", 0xF0FF, 0x00E0⟩, ⟨"RET", 0xF0FF, 0x00EE⟩, ⟨"JP", 0xF000, 0x1000⟩, ⟨"CALL", 0xF000, 0x2000⟩,
   ⟨"SE", 0xF000, 0x3000⟩, ⟨"SNE", 0xF000, 0x4000⟩, ⟨"LD", 0xF000, 0x6000⟩, ⟨"ADD", 0xF000, 0x7000⟩,
   ⟨"MOV", 0xF00F, 0x8000⟩, ⟨"AND", 0xF00F, 0x8002⟩, ⟨"XOR", 0xF00F, 0x8003⟩, ⟨"ADDR", 0xF00F, 0x8004⟩,
   ⟨"SUB", 0xF00F, 0x8005⟩, ⟨"SHR", 0xF00F, 0x8006⟩, ⟨"LDI", 0xF000, 0xA000⟩, ⟨"RND", 0xF000, 0xC000⟩,
   ⟨"DRW", 0xF000, 0xD000⟩, ⟨"SKP", 0xF0FF, 0xE09E⟩, ⟨"SKNP", 0xF0FF, 0xE0A1⟩, ⟨"GETDT", 0xF0FF, 0xF007⟩,
   ⟨"SETDT", 0xF0FF, 0xF015⟩, ⟨"SETST", 0xF0FF, 0xF018⟩, ⟨"ADDI", 0xF0FF, 0xF01E⟩, ⟨"FONT", 0xF0FF, 0xF029⟩,
   ⟨"BCD", 0xF0FF, 0xF033⟩, ⟨"DUMP", 0xF0FF, 0xF055⟩, ⟨"LOAD", 0xF0FF, 0xF065⟩]

/-- The mnemonic of an instruction (R76, R81). -/
def mnemonic : Instr → String
  | .cls => "CLS"
  | .ret => "RET"
  | .jp _ => "JP"
  | .call _ => "CALL"
  | .se _ _ => "SE"
  | .sne _ _ => "SNE"
  | .ld _ _ => "LD"
  | .add _ _ => "ADD"
  | .mov _ _ => "MOV"
  | .and _ _ => "AND"
  | .xor _ _ => "XOR"
  | .addr _ _ => "ADDR"
  | .sub _ _ => "SUB"
  | .shr _ => "SHR"
  | .ldi _ => "LDI"
  | .rnd _ _ => "RND"
  | .drw _ _ _ => "DRW"
  | .skp _ => "SKP"
  | .sknp _ => "SKNP"
  | .getdt _ => "GETDT"
  | .setdt _ => "SETDT"
  | .setst _ => "SETST"
  | .addi _ => "ADDI"
  | .font _ => "FONT"
  | .bcd _ => "BCD"
  | .dump _ => "DUMP"
  | .load _ => "LOAD"

/-- What the decoder reads from an instruction whose bits are `w` (of which `nbits` are given, the rest 0): the word is laid
out as memory holds it, most significant byte first, and decoded. -/
def decodeTableWord (nbits w : Nat) : Option Instr :=
  match decode (bytesOfWord (BitVec.ofNat 16 (w % 2 ^ nbits))) with
  | .ok (i, _) => some i
  | .error _ => none

end Sys2Proof
end

