-- ==== Sys2Proof/Config.lean ====
section
/-! DEFINITION. What an implementation fixes (spec/00_scope.md R5) and the values the spec leaves free
(spec/93_implementation_defined.md U2, U9, U10, U14, U15). A free value is an `opaque` constant: no proof can see what it is,
so a theorem holds whatever it is. -/

namespace Sys2Proof.Config

/-- Treatment of sprite pixels past the display edge (R5, spec/43_display.md R142). -/
inductive DrawPolicy where
  /-- Both coordinates wrap. -/
  | wrap
  /-- Pixels past the right or bottom edge are skipped. -/
  | clip
  deriving DecidableEq, Repr

/-- A bounded STACK_DEPTH: a natural number >= 1 (R5). -/
abbrev Depth := {d : Nat // 1 ≤ d}

/-- A FONT: 16 glyphs of 5 bytes (R5, spec/20_memory.md R58). -/
abbrev Font := Vector Byte 80

/-- The parameters R5 marks *parameter*: the arguments of the machine, fixed per instance (spec/70_reset_and_hazards.md R227).
They stand in State, where every meaning reads them (log 21). -/
structure Params where
  /-- DRAW_POLICY. -/
  drawPolicy : DrawPolicy
  /-- STACK_DEPTH, a number of entries, or none where the stack is unbounded. -/
  stackDepth : Option Depth
  /-- FONT, the 80 bytes at FONT_BASE. -/
  font : Font
  deriving DecidableEq, Repr

/-- The customary font (spec/20_memory.md R58), glyphs 0 to 7. PRESUMED by the spec itself (D14, log 9). -/
def fontLow : List Byte :=
  [0xF0, 0x90, 0x90, 0x90, 0xF0, 0x20, 0x60, 0x20, 0x20, 0x70,
   0xF0, 0x10, 0xF0, 0x80, 0xF0, 0xF0, 0x10, 0xF0, 0x10, 0xF0,
   0x90, 0x90, 0xF0, 0x10, 0x10, 0xF0, 0x80, 0xF0, 0x10, 0xF0,
   0xF0, 0x80, 0xF0, 0x90, 0xF0, 0xF0, 0x10, 0x20, 0x40, 0x40]

/-- The customary font (R58), glyphs 8 to F. PRESUMED by the spec itself (D14, log 9). -/
def fontHigh : List Byte :=
  [0xF0, 0x90, 0xF0, 0x90, 0xF0, 0xF0, 0x90, 0xF0, 0x10, 0xF0,
   0xF0, 0x90, 0xF0, 0x90, 0x90, 0xE0, 0x90, 0xE0, 0x90, 0xE0,
   0xF0, 0x80, 0x80, 0x80, 0xF0, 0xE0, 0x90, 0x90, 0x90, 0xE0,
   0xF0, 0x80, 0xF0, 0x80, 0xF0, 0xF0, 0x80, 0xF0, 0x80, 0x80]

/-- The customary font whole (R58). -/
def font : Font := ⟨⟨fontLow ++ fontHigh⟩, rfl⟩

/-- The default values (R5): WRAP (D4), 16 entries (D5), the customary font (D14). Log 9 and 10. -/
def params : Params :=
  { drawPolicy := .wrap, stackDepth := some ⟨16, by decide⟩, font := font }

/-- MEM_SIZE (R5): byte addresses 0..4095. -/
def memSize : Nat := 4096

/-- LOAD_ADDR (R5): where the image starts; PC at reset. -/
def loadAddr : Nat := 0x200

/-- FONT_BASE (R5). -/
def fontBase : Nat := 0

/-- GLYPH_BYTES (R5). -/
def glyphBytes : Nat := 5

/-- The two agents whose moves make a run: the step relation of the whole machine is a CPU step, or a tick
(spec/60_exceptions.md R194). -/
inductive Agent where
  /-- The CPU, by one STEP request (R180, R196). -/
  | cpu
  /-- The timer, by one tick (R192). -/
  | timer
  deriving DecidableEq, Repr, Inhabited

/-- The agent due at the k-th move: either (U2, U15; spec/60_exceptions.md R194). Free value, log 3. -/
opaque agent : Nat → Agent

/-- KEY at the k-th step: none or one key 0..15, any of them (U10; spec/60_exceptions.md R197). Free value, log 1. -/
opaque key : Nat → Option Nibble

/-- RNG at the k-th executed RND: any byte (U9; spec/60_exceptions.md R198). Free value, log 2. -/
opaque rngByte : Nat → Byte

/-- ERR.word after an OutOfBounds raised by the fetch of the k-th step: unspecified (U14). Free value, log 5. -/
opaque errWord : Nat → Word

/-- ERR.badaddr after a raise of the k-th step that is no OutOfBounds: unspecified (U14). Free value, log 5. -/
opaque errBadaddr : Nat → BitVec 17

end Sys2Proof.Config
end

