-- ==== Sys2Proof/Machine/State.lean ====
section
/-! DEFINITION. The state of the chip8 CORE (spec/10_state.md R20), the environment its inputs come from (R37), and the state
after reset (spec/70_reset_and_hazards.md R211). Plain data. -/

namespace Sys2Proof.Machine

/-- The four fatal errors (spec/60_exceptions.md R187), a closed enumeration; `none` (code 0) is the absence of a record. -/
inductive ErrKind where
  /-- An illegal word reached dispatch. -/
  | decodeError
  /-- RET on an empty stack. -/
  | stackUnderflow
  /-- A fetch or data access above address 4095. -/
  | outOfBounds
  /-- CALL on a full stack. -/
  | stackOverflow
  deriving DecidableEq, Repr

/-- The record `(kind, pc, word, badaddr)` of R34. -/
structure ErrRecord where
  kind : ErrKind
  /-- Address of the offending instruction. -/
  pc : Word
  /-- The raw instruction word; unspecified for an OutOfBounds raised by the fetch. -/
  word : Word
  /-- Lowest out-of-range address; meaningful for OutOfBounds only. 17 bits hold every value it can have. -/
  badaddr : BitVec 17
  deriving DecidableEq, Repr

/-- The Display Plane (spec/00_scope.md R12): the grid of pixel cells `DISP[y][x]` and the collision flag. -/
structure Plane where
  /-- `DISP`: 32 rows of 64 cells, true = lit (R33). -/
  cells : Vector (Vector Bool 64) 32
  /-- `COLL` (R35 a). -/
  coll : Bool
  deriving DecidableEq, Repr

/-- The environment: where the values of the inputs come from. The MODEL's own state, not the spec's (R37 keeps inputs out of
the core's state): each list is a script of the coming values, and past its end the free values of Config are taken, at
the index the counter gives. A statement about every state is a statement about every script. DESIGN CHOICE, log 1 to 4. -/
structure Env where
  /-- The agent due at each of the coming moves. -/
  agents : List Config.Agent
  /-- KEY at each of the coming CPU steps. -/
  keys : List (Option Nibble)
  /-- RNG at each of the coming executed RNDs. -/
  rng : List Byte
  /-- Moves made so far, of either agent. -/
  moves : Nat
  /-- CPU steps requested so far. -/
  steps : Nat
  /-- RNDs executed so far. -/
  draws : Nat
  deriving DecidableEq, Repr

/-- The architectural state of R20, complete, with the instance's parameters and the environment. -/
structure State where
  /-- DRAW_POLICY, STACK_DEPTH and FONT of this instance (spec/00_scope.md R5). No step writes them (log 21). -/
  params : Config.Params
  /-- `V[0..15]`. -/
  v : Vector Byte 16
  /-- `I`, the address register. -/
  i : Word
  /-- `PC`. -/
  pc : Word
  /-- `STACK`, the top last (spec/00_scope.md R8). -/
  stack : List Word
  /-- `MEM`, in canonical form: addresses strictly rising, no entry equal to what an unlisted address reads as. -/
  mem : List Host.Cell
  /-- `DT`, the delay timer. -/
  dt : Byte
  /-- `DISP` and `COLL`. -/
  plane : Plane
  /-- `ERR`: none while the machine runs. -/
  err : Option ErrRecord
  /-- The environment (not core state). -/
  env : Env
  deriving DecidableEq, Repr

/-- Ways a run can stop beside the machine's own ERR record. There are none: every stop the spec describes is a state of
the machine (R34, spec/60_exceptions.md R183, R184), reached by a next state. Nobody raises a Fault (log 20). -/
inductive Fault where
  deriving DecidableEq, Repr

/-- Instructions without a meaning. -/
inductive Refusal where
  /-- Raised only by an arm of `exec` whose instruction has no meaning yet; safe, since the model stops. No arm raises it. -/
  | notModelled (mnemonic : String)
  deriving DecidableEq, Repr

/-- What a step or an instruction answers. -/
abbrev Result := Host.Outcome State Fault Refusal

/-- Every cell unlit, no collision (R211). -/
def Plane.blank : Plane :=
  { cells := Vector.replicate 32 (Vector.replicate 64 false), coll := false }

/-- No script, nothing taken yet: every input of a run from reset is a free value. DESIGN CHOICE, log 4. -/
def Env.free : Env :=
  { agents := [], keys := [], rng := [], moves := 0, steps := 0, draws := 0 }

/-- The state after reset with the empty image (R211): PC = LOAD_ADDR, memory at its reset content (nothing listed), everything
else 0, empty or none (decision D7, log 11), of the instance with the default parameters (R5). -/
def State.reset : State :=
  { params := Config.params
    v := Vector.replicate 16 0#8
    i := 0#16
    pc := BitVec.ofNat 16 Config.loadAddr
    stack := []
    mem := []
    dt := 0#8
    plane := Plane.blank
    err := none
    env := Env.free }

end Sys2Proof.Machine
end

