-- ==== Sys2Proof/Machine/Ops.lean ====
section
/-! DEFINITION. The named operations over memory, registers, stack, inputs and ERR. Every read and write of a meaning goes
through them. Taking an exception is the one operation `raise` (spec/60_exceptions.md R183); there is no return from one (R186). -/

namespace Sys2Proof.Machine

/-! ## Memory (spec/20_memory.md) -/

/-- What an unlisted address reads as: the reset content without image (spec/10_state.md R36), FONT at FONT_BASE and 0 elsewhere. -/
def Memory.initial (font : Config.Font) (a : Nat) : Byte :=
  if a < Config.fontBase then 0#8 else font.toList.getD (a - Config.fontBase) 0#8

/-- The byte at an address. Meaningful below MEM_SIZE; the bounds check comes first in every meaning (R53). -/
def Memory.read (font : Config.Font) : List Host.Cell → Nat → Byte
  | [], a => Memory.initial font a
  | (b, v) :: rest, a => if a = b then v else Memory.read font rest a

/-- Put a byte in front of the cells above `a`, unless an unlisted `a` reads as that byte already. -/
def Memory.put (font : Config.Font) (a : Nat) (v : Byte) (rest : List Host.Cell) : List Host.Cell :=
  if v = Memory.initial font a then rest else (a, v) :: rest

/-- Write one byte, keeping the canonical form. -/
def Memory.write (font : Config.Font) : List Host.Cell → Nat → Byte → List Host.Cell
  | [], a, v => Memory.put font a v []
  | (b, w) :: rest, a, v =>
    if a < b then Memory.put font a v ((b, w) :: rest)
    else if a = b then Memory.put font a v rest
    else (b, w) :: Memory.write font rest a v

/-- Write bytes at ascending addresses from `a` on (R51, R60 d). -/
def Memory.writeBytes (font : Config.Font) : List Host.Cell → Nat → List Byte → List Host.Cell
  | m, _, [] => m
  | m, a, v :: vs => Memory.writeBytes font (Memory.write font m a v) (a + 1) vs

/-- The canonical form from address `lo` on: addresses rise strictly, exist (below MEM_SIZE), and hold no reset content. -/
def Memory.wfFrom (font : Config.Font) : Nat → List Host.Cell → Bool
  | _, [] => true
  | lo, (a, v) :: rest =>
    decide (lo ≤ a) && decide (a < Config.memSize) && decide (v ≠ Memory.initial font a) && Memory.wfFrom font (a + 1) rest

/-- The canonical form of memory. -/
def Memory.wf (font : Config.Font) (m : List Host.Cell) : Bool := Memory.wfFrom font 0 m

/-- The byte of memory at `a` in a state. -/
def State.byteAt (s : State) (a : Nat) : Byte := Memory.read s.params.font s.mem a

/-- The `n` bytes at ascending addresses from `a` on. -/
def State.bytesAt (s : State) (a n : Nat) : List Byte :=
  (List.range n).map fun k => s.byteAt (a + k)

/-- Store bytes at ascending addresses from `a` on. -/
def State.storeBytes (s : State) (a : Nat) (vs : List Byte) : State :=
  { s with mem := Memory.writeBytes s.params.font s.mem a vs }

/-! ## Registers -/

/-- Read `V[x]` (spec/10_state.md R21). No register is hardwired. -/
def State.reg (s : State) (x : Nibble) : Byte := s.v[x.toNat]'x.isLt

/-- Write `V[x]`. -/
def State.setReg (s : State) (x : Nibble) (b : Byte) : State :=
  { s with v := s.v.set x.toNat b x.isLt }

/-- The index of VF, the flag register (R26). -/
def vf : Nibble := 0xF#4

/-- `V[0]`, `V[1]`, …: the first `n` registers, lowest first (spec/42_index_memory.md R125). -/
def State.regsUpTo (s : State) (n : Nat) : List Byte :=
  s.v.toList.take n

/-- Write bytes into consecutive registers from index `k` on (R126). -/
def writeRegs : Nat → List Byte → Vector Byte 16 → Vector Byte 16
  | _, [], v => v
  | k, b :: bs, v => writeRegs (k + 1) bs (v.setIfInBounds k b)

/-- Load bytes into `V[0]`, `V[1]`, …. -/
def State.loadRegs (s : State) (bs : List Byte) : State :=
  { s with v := writeRegs 0 bs s.v }

/-- Write `I`. -/
def State.setI (s : State) (a : Word) : State := { s with i := a }

/-- Write `DT`. -/
def State.setDt (s : State) (b : Byte) : State := { s with dt := b }

/-- Write the display plane. -/
def State.setPlane (s : State) (p : Plane) : State := { s with plane := p }

/-! ## Program counter (spec/10_state.md R24) -/

/-- `pc <- target`. -/
def State.jump (s : State) (target : Word) : State := { s with pc := target }

/-- `pc <- PC + 2`. -/
def State.advance (s : State) : State := s.jump (s.pc + 2#16)

/-- `pc <- PC + 4` if the condition holds, else `pc <- PC + 2` (spec/30_encoding.md R80). -/
def State.skipIf (s : State) (c : Bool) : State := s.jump (s.pc + if c then 4#16 else 2#16)

/-! ## Call stack (spec/10_state.md R31), the top last -/

/-- The stack has no room: it holds STACK_DEPTH entries (or more, in states no run reaches; log 13). -/
def stackFull (depth : Option Config.Depth) (st : List Word) : Bool :=
  match depth with
  | none => false
  | some d => decide (d.val ≤ st.length)

/-- `push(v)`. -/
def State.push (s : State) (a : Word) : State := { s with stack := s.stack ++ [a] }

/-- `pop()`: the last entry and the state without it, or none where the stack is empty. -/
def State.pop (s : State) : Option (Word × State) :=
  match s.stack.getLast? with
  | none => none
  | some a => some (a, { s with stack := s.stack.dropLast })

/-! ## Inputs (spec/60_exceptions.md R192 to R198) -/

/-- KEY of this CPU step (R197; log 1). -/
def State.keyNow (s : State) : Option Nibble := s.env.keys.headD (Config.key s.env.steps)

/-- RNG for the next executed RND (R198; log 2). -/
def State.rngNow (s : State) : Byte := s.env.rng.headD (Config.rngByte s.env.draws)

/-- The agent the environment lets move now (R194; log 3). -/
def State.agentDue (s : State) : Config.Agent := s.env.agents.headD (Config.agent s.env.moves)

/-- The agent that moves now: the one due, but the CPU where DT is 0, since a tick then changes nothing (R192; log 3). -/
def State.mover (s : State) : Config.Agent := if s.dt = 0#8 then .cpu else s.agentDue

/-- One RNG byte is consumed (D23). -/
def State.drawRng (s : State) : State :=
  { s with env := { s.env with rng := s.env.rng.tail, draws := s.env.draws + 1 } }

/-- `tick` on the counter: down by one, floored at zero (R192). -/
def tickDown (d : Byte) : Byte := if d = 0#8 then 0#8 else d - 1#8

/-- The tick agent's one kind of step (R192). -/
def State.tick (s : State) : State := s.setDt (tickDown s.dt)

/-- A move is over: the environment's choice of agent is used up. -/
def State.endMove (s : State) : State :=
  { s with env := { s.env with agents := s.env.agents.tail, moves := s.env.moves + 1 } }

/-- A STEP request is over: its KEY is used up (R197: one snapshot per step). -/
def State.endRequest (s : State) : State :=
  { s with env := { s.env with keys := s.env.keys.tail, steps := s.env.steps + 1 } }

/-! ## Fetch (spec/60_exceptions.md R180 stage 1) -/

/-- `MEM[PC] ++ MEM[PC+1]`, big-endian (spec/20_memory.md R50): the raw word of the instruction at PC. -/
def State.wordAtPc (s : State) : Word :=
  wordOfBytes (s.byteAt s.pc.toNat) (s.byteAt (s.pc.toNat + 1))

/-- The fetched word, or none where PC + 1 is above 4095 (R181). -/
def State.fetch (s : State) : Option Word :=
  if s.pc.toNat + 1 < Config.memSize then some s.wordAtPc else none

/-! ## Taking an exception (spec/60_exceptions.md R183) -/

/-- `raise`: ERR is written, with PC as it stands, and nothing else changes. The one place an exception is taken. -/
def raise (k : ErrKind) (word : Word) (badaddr : BitVec 17) (s : State) : Result :=
  .next { s with err := some { kind := k, pc := s.pc, word := word, badaddr := badaddr } }

/-- `max(a, 4096)`, the lowest out-of-range address of an access that starts at `a` and leaves memory (R187, D26). -/
def badAddr (a : Word) : BitVec 17 := BitVec.ofNat 17 (max a.toNat Config.memSize)

/-- The fetch's OutOfBounds; its word is unspecified (R181; free value, log 5). -/
def raiseFetch (s : State) : Result :=
  raise .outOfBounds (Config.errWord s.env.steps) (badAddr s.pc) s

/-- DecodeError with the raw word; its address is unspecified (R182; free value, log 5). -/
def raiseDecode (word : Word) (s : State) : Result :=
  raise .decodeError word (Config.errBadaddr s.env.steps) s

/-- StackUnderflow; its address is unspecified (spec/40_flow.md R91; free value, log 5). -/
def raiseUnderflow (s : State) : Result :=
  raise .stackUnderflow s.wordAtPc (Config.errBadaddr s.env.steps) s

/-- StackOverflow; its address is unspecified (spec/40_flow.md R93; free value, log 5). -/
def raiseOverflow (s : State) : Result :=
  raise .stackOverflow s.wordAtPc (Config.errBadaddr s.env.steps) s

/-- The data accesses' OutOfBounds: the lowest out-of-range address from I on (R187). -/
def raiseData (s : State) : Result :=
  raise .outOfBounds s.wordAtPc (badAddr s.i) s

/-! ## Sequencing -/

/-- Apply a function to the next state of a result. -/
def onNext (f : State → State) : Result → Result
  | .next s => .next (f s)
  | .fault r => .fault r
  | .refused r => .refused r

/-! ## The loader (spec/70_reset_and_hazards.md R213) -/

/-- The image copied verbatim to LOAD_ADDR upward; the font and the zeroes are memory's reset content already. -/
def State.load (s : State) (image : List Byte) : State := s.storeBytes Config.loadAddr image

/-- Reset of the instance with the given parameters (R5, R211). -/
def State.resetOf (p : Config.Params) : State := { State.reset with params := p }

/-- Reset with an image: none where it is longer than 3584 bytes, since such a machine never exists (spec/20_memory.md R57). The
parameters are arguments, with the spec's values as default (R5). -/
def boot (image : List Byte) (p : Config.Params := Config.params) : Option State :=
  if Config.loadAddr + image.length ≤ Config.memSize then some ((State.resetOf p).load image) else none

/-- The numeric code of an error kind in a hardware `ERR.kind` field of 3 bits (R187); 0 is `none`. -/
def errCode : Option ErrRecord → BitVec 3
  | none => 0#3
  | some e =>
    match e.kind with
    | .decodeError => 1#3
    | .stackUnderflow => 2#3
    | .outOfBounds => 3#3
    | .stackOverflow => 4#3

end Sys2Proof.Machine
end

