-- ==== Sys2Proof/Machine/Flags.lean ====
section
/-! DEFINITION. The four flag computations (spec/10_state.md R27) and the order in which result and flag are written
(spec/41_alu.md R100, D6). -/

namespace Sys2Proof.Machine

/-- A flag as the register holds it: 1 or 0 (R26). -/
def flagByte (c : Bool) : Byte := if c then 1#8 else 0#8

/-- ADDR: the 9-bit sum exceeds 255 (R106). -/
def carryOut (a b : Byte) : Bool := decide (255 < a.toNat + b.toNat)

/-- SUB: no borrow (R107). -/
def notBorrow (a b : Byte) : Bool := decide (b.toNat ≤ a.toNat)

/-- SHR: bit 0 before the shift (R108). -/
def shiftedOut (a : Byte) : Bool := a.getLsbD 0

/-- Write VF as a flag (R26). -/
def State.setFlag (s : State) (c : Bool) : State := s.setReg vf (flagByte c)

/-- The 8-bit result first, the flag second: with x = 15 the flag wins (R100, D6). -/
def State.setRegFlag (s : State) (x : Nibble) (r : Byte) (c : Bool) : State := (s.setReg x r).setFlag c

end Sys2Proof.Machine
end

