-- ==== Sys2Proof/Machine/Alu.lean ====
section
/-! DEFINITION. Registers and arithmetic: LD, ADD, MOV, AND, XOR, ADDR, SUB, SHR, RND (spec/41_alu.md). -/

namespace Sys2Proof.Machine

/-- R101. -/
def execLd (x : Nibble) (nn : Byte) (s : State) : Result := .next (s.setReg x nn).advance

/-- R102: modulo 256, no flag. -/
def execAdd (x : Nibble) (nn : Byte) (s : State) : Result := .next (s.setReg x (s.reg x + nn)).advance

/-- R103. -/
def execMov (x y : Nibble) (s : State) : Result := .next (s.setReg x (s.reg y)).advance

/-- R104. -/
def execAnd (x y : Nibble) (s : State) : Result := .next (s.setReg x (s.reg x &&& s.reg y)).advance

/-- R105. -/
def execXor (x y : Nibble) (s : State) : Result := .next (s.setReg x (s.reg x ^^^ s.reg y)).advance

/-- R106. -/
def execAddr (x y : Nibble) (s : State) : Result :=
  .next (s.setRegFlag x (s.reg x + s.reg y) (carryOut (s.reg x) (s.reg y))).advance

/-- R107. -/
def execSub (x y : Nibble) (s : State) : Result :=
  .next (s.setRegFlag x (s.reg x - s.reg y) (notBorrow (s.reg x) (s.reg y))).advance

/-- R108: logical, in place (D12). -/
def execShr (x : Nibble) (s : State) : Result :=
  .next (s.setRegFlag x (s.reg x >>> 1) (shiftedOut (s.reg x))).advance

/-- R109: one byte of the random source is consumed. -/
def execRnd (x : Nibble) (nn : Byte) (s : State) : Result :=
  .next ((s.setReg x (s.rngNow &&& nn)).drawRng).advance

end Sys2Proof.Machine
end

