-- ==== Sys2Proof/Machine/Operands.lean ====
section
/-! DEFINITION. The operand forms (spec/30_encoding.md R73, spec/42_index_memory.md R120): register content, 8-bit immediate as it
is, 12-bit address zero-extended, register used as a key number, and the block of bytes at I. -/

namespace Sys2Proof.Machine

/-- `zext_16(nnn)`: a byte address, never scaled (R73). -/
def target (nnn : Addr) : Word := nnn.setWidth 16

/-- `zext_16(V[x])`. -/
def State.regWide (s : State) (x : Nibble) : Word := (s.reg x).setWidth 16

/-- `pressed(v)`: KEY is some key, equal to v on all 8 bits (spec/44_key_timer.md R166, D10). -/
def pressed (key : Option Nibble) (v : Byte) : Bool :=
  match key with
  | none => false
  | some k => decide (k.setWidth 8 = v)

/-- All `n` bytes from I on are in memory: `n = 0` or `I + n - 1 <= 4095`, on natural numbers (spec/20_memory.md R53). -/
def State.blockInMemory (s : State) (n : Nat) : Bool :=
  decide (n = 0 ∨ s.i.toNat + n ≤ Config.memSize)

/-- Run the rest of an instruction if all `n` bytes from I on are in memory, else raise OutOfBounds with nothing changed (R185). -/
def withBlock (n : Nat) (s : State) (rest : State) : Result :=
  if s.blockInMemory n then .next rest else raiseData s

/-- The number of registers DUMP and LOAD move: `x` is used as a number (R73). -/
def blockLength (x : Nibble) : Nat := x.toNat + 1

/-- `I <- I + n` after a block of n bytes (R125, R126). -/
def State.moveI (s : State) (n : Nat) : State := s.setI (s.i + BitVec.ofNat 16 n)

/-- The three decimal digits, hundreds first (R124). -/
def digits (v : Byte) : List Byte :=
  [BitVec.ofNat 8 (v.toNat / 100), BitVec.ofNat 8 (v.toNat / 10 % 10), BitVec.ofNat 8 (v.toNat % 10)]

end Sys2Proof.Machine
end

