-- ==== Sys2Proof/Machine/Display.lean ====
section
/-! DEFINITION. The sprite renderer and the display instructions: CLS, DRW (spec/43_display.md). -/

namespace Sys2Proof.Machine

/-- `DISP[y][x]`. -/
def Plane.cell (p : Plane) (y : Fin 32) (x : Fin 64) : Bool := p.cells[y][x]

/-- `DISP[y][x] <- DISP[y][x] ^ 1`; COLL is set where the cell goes from 1 to 0 (R143). -/
def Plane.flip (p : Plane) (y : Fin 32) (x : Fin 64) : Plane :=
  { cells := p.cells.set y (p.cells[y].set x (!p.cell y x) x.isLt) y.isLt
    coll := p.coll || p.cell y x }

/-- The cell (row, column) a pixel at unwrapped coordinates lands on, or none where it is skipped (R142). -/
def cellOf (policy : Config.DrawPolicy) (x y : Nat) : Option (Fin 32 × Fin 64) :=
  match policy with
  | .wrap => some (Fin.ofNat 32 y, Fin.ofNat 64 x)
  | .clip => if x ≤ 63 ∧ y ≤ 31 then some (Fin.ofNat 32 y, Fin.ofNat 64 x) else none

/-- Plot one sprite bit of 1. -/
def Plane.plot (policy : Config.DrawPolicy) (x y : Nat) (p : Plane) : Plane :=
  match cellOf policy x y with
  | none => p
  | some (py, px) => p.flip py px

/-- One sprite row: bit 7 of the byte is column 0 (R140). -/
def Plane.drawRow (policy : Config.DrawPolicy) (x0 y : Nat) (b : Byte) (p : Plane) : Plane :=
  (List.range 8).foldl (fun q c => if b.getLsbD (7 - c) then q.plot policy (x0 + c) y else q) p

/-- The sprite rows from row y on. -/
def Plane.drawRows (policy : Config.DrawPolicy) (x0 : Nat) : Nat → List Byte → Plane → Plane
  | _, [], p => p
  | y, b :: bs, p => Plane.drawRows policy x0 (y + 1) bs (p.drawRow policy x0 y b)

/-- The renderer: COLL cleared first, then every row (R143). -/
def Plane.draw (policy : Config.DrawPolicy) (x0 y0 : Nat) (sprite : List Byte) (p : Plane) : Plane :=
  Plane.drawRows policy x0 y0 sprite { p with coll := false }

/-- Every cell 0; COLL is not written (R141). -/
def Plane.clear (p : Plane) : Plane := { p with cells := Plane.blank.cells }

/-- The plane after DRW Vx, Vy, n: the sprite is the n bytes at I, drawn at (V[x], V[y]), all read before any write (R143). -/
def State.drawn (policy : Config.DrawPolicy) (x y n : Nibble) (s : State) : Plane :=
  s.plane.draw policy (s.reg x).toNat (s.reg y).toNat (s.bytesAt s.i.toNat n.toNat)

/-- R141. -/
def execCls (s : State) : Result := .next (s.setPlane s.plane.clear).advance

/-- R143: VF <- COLL last, written by every DRW that does not raise. -/
def execDrw (x y n : Nibble) (s : State) : Result :=
  let p := s.drawn s.params.drawPolicy x y n
  withBlock n.toNat s ((s.setPlane p).setFlag p.coll).advance

end Sys2Proof.Machine
end

