-- ==== Sys2Proof/Machine/Flow.lean ====
section
/-! DEFINITION. Control transfer: RET, JP, CALL, SE, SNE (spec/40_flow.md). -/

namespace Sys2Proof.Machine

/-- R91. -/
def execRet (s : State) : Result :=
  match s.pop with
  | none => raiseUnderflow s
  | some (a, t) => .next (t.jump a)

/-- R92. -/
def execJp (nnn : Addr) (s : State) : Result := .next (s.jump (target nnn))

/-- R93. -/
def execCall (nnn : Addr) (s : State) : Result :=
  if stackFull s.params.stackDepth s.stack then raiseOverflow s
  else .next ((s.push (s.pc + 2#16)).jump (target nnn))

/-- R94. -/
def execSe (x : Nibble) (nn : Byte) (s : State) : Result := .next (s.skipIf (decide (s.reg x = nn)))

/-- R95. -/
def execSne (x : Nibble) (nn : Byte) (s : State) : Result := .next (s.skipIf (decide (s.reg x ≠ nn)))

end Sys2Proof.Machine
end

