-- ==== Sys2Proof/Machine/IndexMemory.lean ====
section
/-! DEFINITION. The address register and memory: LDI, ADDI, FONT, BCD, DUMP, LOAD (spec/42_index_memory.md). -/

namespace Sys2Proof.Machine

/-- R121. -/
def execLdi (nnn : Addr) (s : State) : Result := .next (s.setI (target nnn)).advance

/-- R122: modulo 65536, no flag. -/
def execAddi (x : Nibble) (s : State) : Result := .next (s.setI (s.i + s.regWide x)).advance

/-- R123: the full 8-bit value times GLYPH_BYTES (D28). -/
def execFont (x : Nibble) (s : State) : Result :=
  .next (s.setI (s.regWide x * BitVec.ofNat 16 Config.glyphBytes)).advance

/-- R124. -/
def execBcd (x : Nibble) (s : State) : Result :=
  withBlock 3 s (s.storeBytes s.i.toNat (digits (s.reg x))).advance

/-- R125. -/
def execDump (x : Nibble) (s : State) : Result :=
  withBlock (blockLength x) s
    ((s.storeBytes s.i.toNat (s.regsUpTo (blockLength x))).moveI (blockLength x)).advance

/-- R126. -/
def execLoad (x : Nibble) (s : State) : Result :=
  withBlock (blockLength x) s
    ((s.loadRegs (s.bytesAt s.i.toNat (blockLength x))).moveI (blockLength x)).advance

end Sys2Proof.Machine
end

