-- ==== Sys2Proof/Machine/KeyTimer.lean ====
section
/-! DEFINITION. Keys and the delay timer: SKP, SKNP, GETDT, SETDT, SETST (spec/44_key_timer.md). -/

namespace Sys2Proof.Machine

/-- R161. -/
def execSkp (x : Nibble) (s : State) : Result := .next (s.skipIf (pressed s.keyNow (s.reg x)))

/-- R162. -/
def execSknp (x : Nibble) (s : State) : Result := .next (s.skipIf (!pressed s.keyNow (s.reg x)))

/-- R163: the read has no side effect on DT (D9). -/
def execGetdt (x : Nibble) (s : State) : Result := .next (s.setReg x s.dt).advance

/-- R164. -/
def execSetdt (x : Nibble) (s : State) : Result := .next (s.setDt (s.reg x)).advance

/-- R165: no sound timer exists (D17), so x is decoded and unused. -/
def execSetst (_x : Nibble) (s : State) : Result := .next s.advance

end Sys2Proof.Machine
end

