-- ==== Sys2Proof/Machine/Cycle.lean ====
section
/-! DEFINITION. The step of the CPU agent (spec/60_exceptions.md R180) and one move of the whole machine (R194). -/

namespace Sys2Proof.Machine

/-- Stages 2 to 4 of R180 on a fetched word. -/
def dispatchWord (w : Word) (s : State) : Result :=
  match decodeWord w with
  | .ok i => exec i s
  | .error _ => raiseDecode w s

/-- R180, all stages. In the halted state a request does nothing (stage 0, R196; log 6). -/
def cpuStep (s : State) : Result :=
  match s.err with
  | some _ => .next s
  | none =>
    match s.fetch with
    | none => raiseFetch s
    | some w => dispatchWord w s

/-- The CPU's move: one STEP request (R196), after which its inputs are used up. -/
def cpuMove (s : State) : Result := onNext (fun t => t.endRequest.endMove) (cpuStep s)

/-- The timer's move: one tick (R192). -/
def timerMove (s : State) : State := s.tick.endMove

/-- One move of the whole machine: "a CPU step, or a tick" (R194), whichever agent the environment lets move. -/
def cycle (s : State) : Result :=
  match s.mover with
  | .cpu => cpuMove s
  | .timer => .next (timerMove s)

/-- The same state with the CPU due: where DT is 0 it is. -/
def State.withCpuDue (s : State) : State :=
  if s.dt = 0#8 then s else { s with env := { s.env with agents := .cpu :: s.env.agents } }

end Sys2Proof.Machine
end

