-- ==== Sys2Proof/Machine/Step.lean ====
section
/-! DEFINITION. The machine's step, and an instruction placed where it fetches next. -/

namespace Sys2Proof.Machine

/-- One step of the machine: a CPU step, or a tick (spec/60_exceptions.md R180, R192, R194). -/
def step (s : State) : Host.Outcome State Fault Refusal := cycle s

/-- The state with the instruction of bits `w` stored at PC, most significant byte first: there the next step fetches it,
since the CPU is due. Where PC + 1 is above 4095 no step fetches (R181), and the state stays as it is. -/
def State.withFetchWord (s : State) (nbits w : Nat) : State :=
  match s.fetch with
  | none => s
  | some _ => (s.storeBytes s.pc.toNat (bytesOfWord (BitVec.ofNat 16 (w % 2 ^ nbits)))).withCpuDue

end Sys2Proof.Machine
end

