-- ==== Sys2Proof/Safety.lean ====
section
/-! DEFINITION. The terms claims are stated in: the invariants of a safe machine, what an instruction leaves unchanged, which
exception a step raises, what a sprite covers, when a program has ended, what the host sees. None of it is used by the step. -/

namespace Sys2Proof.Safety

open Sys2Proof.Machine

/-! ## Frames -/

/-- The pieces of state of spec/10_state.md R20, the instance's parameters, and the environment. -/
inductive Part where
  | v | i | pc | stack | mem | dt | disp | coll | err | params | env
  deriving DecidableEq, Repr

/-- Two states agree on a piece of state; memory through the read of every byte. -/
def agree (s t : State) : Part → Prop
  | .v => t.v = s.v
  | .i => t.i = s.i
  | .pc => t.pc = s.pc
  | .stack => t.stack = s.stack
  | .mem => ∀ a, t.byteAt a = s.byteAt a
  | .dt => t.dt = s.dt
  | .disp => t.plane.cells = s.plane.cells
  | .coll => t.plane.coll = s.plane.coll
  | .err => t.err = s.err
  | .params => t.params = s.params
  | .env => t.env = s.env

/-- Everything but the named pieces is unchanged. -/
def sameBut (parts : List Part) (s t : State) : Prop := ∀ p, p ∉ parts → agree s t p

/-- Every register but those of a list is unchanged. -/
def regsBut (xs : List Nibble) (s t : State) : Prop := ∀ r, r ∉ xs → t.reg r = s.reg r

/-- Every byte of memory outside the `n` bytes at `a` reads as before. -/
def bytesOutside (a n : Nat) (s t : State) : Prop := ∀ b, b < a ∨ a + n ≤ b → t.byteAt b = s.byteAt b

/-! ## Exceptions (spec/60_exceptions.md R187) -/

/-- The stack holds exactly STACK_DEPTH entries (spec/40_flow.md R93); an unbounded one never does. -/
abbrev stackAtDepth (s : State) : Prop := s.params.stackDepth.map Subtype.val = some s.stack.length

/-- The stack has room for one entry more (R93). -/
def stackHasRoom (s : State) : Prop := ∀ d ∈ s.params.stackDepth, s.stack.length < d.val

/-- The execute-stage column of R187: which exception an instruction raises on a state. -/
def execCause (i : Instr) (s : State) : Option ErrKind :=
  match i with
  | .ret => if s.stack.length = 0 then some .stackUnderflow else none
  | .call _ => if stackAtDepth s then some .stackOverflow else none
  | .bcd _ => if 4095 < s.i.toNat + 2 then some .outOfBounds else none
  | .dump x | .load x => if 4095 < s.i.toNat + x.toNat then some .outOfBounds else none
  | .drw _ _ n => if 0 < n.toNat ∧ 4095 < s.i.toNat + n.toNat - 1 then some .outOfBounds else none
  | .cls | .jp _ | .se _ _ | .sne _ _ | .ld _ _ | .add _ _ | .mov _ _ | .and _ _ | .xor _ _ | .addr _ _ | .sub _ _
  | .shr _ | .ldi _ | .rnd _ _ | .skp _ | .sknp _ | .getdt _ | .setdt _ | .setst _ | .addi _ | .font _ => none

/-- The whole table of R187 in stage order (R188): fetch, dispatch, execute. -/
def stepCause (s : State) : Option ErrKind :=
  if 4095 ≤ s.pc.toNat then some .outOfBounds
  else match decodeWord s.wordAtPc with
    | .error _ => some .decodeError
    | .ok i => execCause i s

/-- The lowest out-of-range address of the access that raises: from PC on in the fetch, else from I on (R187, D26). -/
def lowestBad (s : State) : Nat := max (if 4095 ≤ s.pc.toNat then s.pc.toNat else s.i.toNat) 4096

/-- The CPU, not halted, fetches at PC and executes `i` if it steps (R180). -/
def executes (s : State) (i : Instr) : Prop :=
  s.err = none ∧ s.pc.toNat + 1 ≤ 4095 ∧ decodeWord s.wordAtPc = .ok i

/-- The code column of R187 (D21). -/
def kindCode : ErrKind → Nat
  | .decodeError => 1
  | .stackUnderflow => 2
  | .outOfBounds => 3
  | .stackOverflow => 4

/-- The answer is the state with an error record and nothing else changed: kind `k`, PC as it stood (R183). -/
def raises (k : ErrKind) (s : State) (r : Result) (ok : ErrRecord → Prop) : Prop :=
  ∃ e, r = .next { s with err := some e } ∧ e.kind = k ∧ e.pc = s.pc ∧ ok e

/-- An instruction raises OutOfBounds on its block at I: raw word, lowest out-of-range address (R187, D26). -/
def raisesData (i : Instr) (s : State) : Prop :=
  raises .outOfBounds s (exec i s) fun e => e.word = s.wordAtPc ∧ e.badaddr.toNat = max s.i.toNat 4096

/-! ## Invariants -/

/-- The stack fits its depth (spec/10_state.md R31). -/
def stackFits (depth : Option Config.Depth) (st : List Word) : Bool :=
  match depth with
  | none => true
  | some d => decide (st.length ≤ d.val)

/-- Memory in canonical form, PC at most 4098 (spec/10_state.md R25), at most STACK_DEPTH entries (R31), each at most 4096 (R25). -/
abbrev Inv (s : State) : Prop :=
  Memory.wf s.params.font s.mem = true ∧ s.pc.toNat ≤ 4098 ∧ stackFits s.params.stackDepth s.stack = true ∧
    (s.stack.all fun a => decide (a.toNat ≤ 4096)) = true

/-- An error record fits the state it stands in (R34, R183, R187): its pc is PC, its word the word at PC unless the fetch
raised, its kind the one the table of R187 names on this state (nothing but ERR changed, so the condition still holds), and its
address, for an OutOfBounds, the lowest out-of-range one. -/
abbrev errFits (s : State) (e : ErrRecord) : Prop :=
  e.pc = s.pc ∧ (e.word = s.wordAtPc ∨ 4095 ≤ s.pc.toNat) ∧ stepCause s = some e.kind ∧
    (e.kind = .outOfBounds → e.badaddr.toNat = lowestBad s)

/-- The machine runs, or its error record fits its state. -/
abbrev ErrExplained (s : State) : Prop := ∀ e ∈ s.err, errFits s e

/-! ## The display (spec/43_display.md) -/

/-- The pixel of unwrapped coordinates (x, y) lands on the cell of row `py`, column `px` (R142). -/
def lands (policy : Config.DrawPolicy) (x y : Nat) (py : Fin 32) (px : Fin 64) : Bool :=
  match policy with
  | .wrap => decide (y % 32 = py.val) && decide (x % 64 = px.val)
  | .clip => decide (y = py.val) && decide (x = px.val)

/-- Some pixel of 1 of a sprite drawn at (x0, y0) lands on the cell: row r of the sprite is byte r, column c its bit 7 - c (R140, R142). -/
def covers (policy : Config.DrawPolicy) (x0 y0 : Nat) (sprite : List Byte) (py : Fin 32) (px : Fin 64) : Bool :=
  (List.range sprite.length).any fun r =>
    (List.range 8).any fun c => (sprite.getD r 0#8).getLsbD (7 - c) && lands policy (x0 + c) (y0 + r) py px

/-- The sprite bytes DRW with row count `n` reads (R143). -/
def spriteOf (s : State) (n : Nibble) : List Byte :=
  (List.range n.toNat).map fun r => s.byteAt (s.i.toNat + r)

/-! ## Keys (spec/44_key_timer.md R166) -/

/-- The key numbered by `V[x]` is held in this step. -/
def keyHeld (x : Nibble) (s : State) : Prop := ∃ k, s.keyNow = some k ∧ k.toNat = (s.reg x).toNat

/-! ## Runs -/

/-- A program has ended: no error, and the word at PC is a JP whose target is PC (spec/70_reset_and_hazards.md R218). -/
def ended (s : State) : Bool :=
  decide (s.err = none) && decide (s.pc.toNat + 1 ≤ 4095) &&
    match decodeWord s.wordAtPc with
    | .ok (.jp nnn) => decide (nnn.toNat = s.pc.toNat)
    | _ => false

/-- What the host can read between steps: DISP and ERR (spec/60_exceptions.md R199). -/
def hostView (s : State) : Vector (Vector Bool 64) 32 × Option ErrRecord := (s.plane.cells, s.err)

/-- The agent due at the move `k` moves from now. -/
def agentAhead (s : State) (k : Nat) : Config.Agent := s.env.agents.getD k (Config.agent (s.env.moves + k))

/-- Fairness of the agents (R195): from any move on, a tick is due some time, and so is the CPU. A premise for claims about runs
that wait for the timer; the step does not assume it. -/
def fair (s : State) : Prop := ∀ (a : Config.Agent) (k : Nat), ∃ j, k ≤ j ∧ agentAhead s j = a

/-- Two states agree on everything but the environment. -/
def sameCore (s t : State) : Prop := { t with env := s.env } = s

/-- Two states present the same inputs to the coming move: the agent due, KEY, RNG, and the number of CPU steps so far, which
indexes the free values of the unspecified ERR fields (log 5). -/
def sameInputs (s t : State) : Prop :=
  t.agentDue = s.agentDue ∧ t.keyNow = s.keyNow ∧ t.rngNow = s.rngNow ∧ t.env.steps = s.env.steps

end Sys2Proof.Safety
end

