-- ==== Sys2Proof/Certificates/Slice0/Obligations.lean ====
section
/-! DEFINITION. The statements for the provers. Each docstring names the rule of spec/ it formalises. A result statement
concludes that `exec` answers a next state, for every state and operand that meets its hypotheses, with what that state holds and
what it leaves unchanged. -/

open Sys2Proof Sys2Proof.Machine Sys2Proof.Safety

/-! ## Encoding (spec/30_encoding.md) -/

/-- R70 to R77 with the numbers of the spec's decision D1 (log 8): every instruction, with every operand value its encoding admits, is read back from the bytes it is stored as,
whatever bytes follow. Every term of `Instr` is well-formed. -/
def Obligations.DecodeOfEncode : Prop :=
  ∀ (i : Instr) (rest : List Byte),
    wellFormed i = true ∧ decode (bytesOfWord (encode i) ++ rest) = .ok (i, rest)

/-- R75, R77, decision D3 (log 12): a word that decodes is the encoding of what it decodes to exactly where it has no ignored bit set. -/
def Obligations.EncodeOfDecode : Prop :=
  ∀ (w : Word) (i : Instr), decodeWord w = .ok i → (encode i = w ↔ plainWord w = true)

/-- R76, the numbers being the spec's decision D1 (log 8): the map has 27 rows, a word is an instruction exactly where it matches the row of its mnemonic, and no word matches
two rows. -/
def Obligations.DecoderFollowsOpcodeMap : Prop :=
  opcodeMap.length = 27 ∧
  (∀ (w : Word) (i : Instr), decodeWord w = .ok i →
    ∃ row ∈ opcodeMap, row.mnemonic = mnemonic i ∧ w &&& row.mask = row.pattern) ∧
  (∀ (w : Word), ∀ row ∈ opcodeMap, w &&& row.mask = row.pattern →
    ∃ i, decodeWord w = .ok i ∧ mnemonic i = row.mnemonic) ∧
  opcodeMap.Pairwise fun r q => ∀ w : Word, ¬(w &&& r.mask = r.pattern ∧ w &&& q.mask = q.pattern)

/-- R75 with the spec's decision D3 (log 12): bits 11:8 of CLS and RET and bits 7:4 of SHR are ignored, and assemblers emit 0 there. -/
def Obligations.IgnoredBits : Prop :=
  (∀ x : Nibble, decodeWord (0x0#4 ++ x ++ 0xE0#8) = .ok .cls ∧ decodeWord (0x0#4 ++ x ++ 0xEE#8) = .ok .ret) ∧
  (∀ x y : Nibble, decodeWord (0x8#4 ++ x ++ y ++ 0x6#4) = .ok (.shr x)) ∧
  ∀ i : Instr, plainWord (encode i) = true

/-- R78 without its counts, the numbers being decision D1 (log 8): which words are illegal, by family and discriminant. -/
def Obligations.IllegalWords : Prop :=
  ∀ w : Word, (∃ r, decodeWord w = .error r) ↔
    (opField w = 0x0#4 ∧ nnField w ∉ [0xE0#8, 0xEE#8]) ∨
    opField w ∈ [0x5#4, 0x9#4, 0xB#4] ∨
    (opField w = 0x8#4 ∧ nField w ∉ [0x0#4, 0x2#4, 0x3#4, 0x4#4, 0x5#4, 0x6#4]) ∨
    (opField w = 0xE#4 ∧ nnField w ∉ [0x9E#8, 0xA1#8]) ∨
    (opField w = 0xF#4 ∧ nnField w ∉ [0x07#8, 0x15#8, 0x18#8, 0x1E#8, 0x29#8, 0x33#8, 0x55#8, 0x65#8])

/-- Sanity: words written out from the spec's encodings decode to the instructions they stand for (examples of the R9x, R10x,
R12x, R14x, R16x rules). -/
def Obligations.SampleWordsDecode : Prop :=
  decodeWord 0x2300#16 = .ok (.call 0x300#12) ∧
  decodeWord 0x3A42#16 = .ok (.se 0xA#4 0x42#8) ∧
  decodeWord 0x8125#16 = .ok (.sub 0x1#4 0x2#4) ∧
  decodeWord 0xF255#16 = .ok (.dump 0x2#4) ∧
  decodeWord 0xD125#16 = .ok (.drw 0x1#4 0x2#4 0x5#4) ∧
  decodeWord 0xE29E#16 = .ok (.skp 0x2#4)

/-! ## Reset and the loader (spec/70_reset_and_hazards.md) -/

/-- R57, R36, R211: the state when the first step begins, for every instance (R5) and every image that fits, and no machine for
one that does not (decision D16). The zeroes of the registers, DT, the display and the empty stack are decision D7 (log 11). -/
def Obligations.BootState : Prop :=
  (∀ (image : List Byte) (p : Config.Params), 3584 < image.length → boot image p = none) ∧
  ∀ (image : List Byte) (p : Config.Params), image.length ≤ 3584 → ∃ s, boot image p = some s ∧
    s.params = p ∧ s.pc = 0x200#16 ∧
    (∀ (a : Nat) (h : a < 80), s.byteAt a = p.font[a]) ∧
    (∀ j, j < image.length → s.byteAt (0x200 + j) = image.getD j 0#8) ∧
    (∀ a, 80 ≤ a → a < 0x200 → s.byteAt a = 0#8) ∧
    (∀ a, 0x200 + image.length ≤ a → a < 4096 → s.byteAt a = 0#8) ∧
    (∀ x, s.reg x = 0#8) ∧ s.i = 0#16 ∧ s.stack = [] ∧ s.dt = 0#8 ∧
    (∀ y x, s.plane.cell y x = false) ∧ s.plane.coll = false ∧ s.err = none

/-- R212: with an empty image the first step raises DecodeError(0x200, 0x0000), and changes nothing else of the core. -/
def Obligations.EmptyImageFirstStep : Prop :=
  ∃ t e, step State.reset = .next t ∧ t.err = some e ∧
    e.kind = .decodeError ∧ e.pc = 0x200#16 ∧ e.word = 0x0000#16 ∧ sameBut [.err, .env] State.reset t

/-- The invariants hold right after reset, whatever the instance and whatever image was loaded (R25, R31, R211). -/
def Obligations.InvariantsAfterBoot : Prop :=
  ∀ (image : List Byte) (p : Config.Params) (s : State), boot image p = some s → Inv s ∧ ErrExplained s

/-- R5, R227: reset and load make an instance of the given parameters, no step changes them, and the defaults are WRAP (decision
D4), 16 entries (D5) and the customary font (D14; log 9, 10). That they stand in State is the model's choice (log 21). -/
def Obligations.ParametersFixed : Prop :=
  (∀ (image : List Byte) (p : Config.Params) (s : State), boot image p = some s → s.params = p) ∧
  (∀ s t : State, step s = .next t → t.params = s.params) ∧
  State.reset.params.drawPolicy = .wrap ∧ State.reset.params.stackDepth.map Subtype.val = some 16 ∧
  State.reset.params.font.toList = Config.fontLow ++ Config.fontHigh

/-! ## The step (spec/60_exceptions.md) -/

/-- R180, R192, R194: where the machine runs and the bytes at PC are in memory and decode to `i`, the CPU's step is `exec i`; the
machine's step is "a CPU step, or a tick": where the CPU moves it is `exec i`, after which the STEP request's KEY and the
environment's choice of agent are used up, and where the timer moves it is a tick. The CPU moves wherever it is due or DT is 0.
That the environment's choice of agent and the inputs stand in State and are used up is the model's choice (log 1, log 3). -/
def Obligations.StepRunsDecoded : Prop :=
  (∀ (s : State) (i : Instr), s.err = none → s.pc.toNat + 1 ≤ 4095 → decodeWord s.wordAtPc = .ok i →
    cpuStep s = exec i s ∧ (s.mover = .cpu → step s = onNext (fun t => t.endRequest.endMove) (exec i s))) ∧
  (∀ s : State, s.mover = .timer → step s = .next s.tick.endMove) ∧
  ∀ s : State, s.mover = .cpu ↔ s.dt = 0#8 ∨ s.agentDue = .cpu

/-- R50: the fetched word is big-endian (at any parity of PC). -/
def Obligations.FetchBigEndian : Prop :=
  ∀ s : State, s.pc.toNat + 1 ≤ 4095 →
    ∃ w, s.fetch = some w ∧ w.extractLsb' 8 8 = s.byteAt s.pc.toNat ∧ w.extractLsb' 0 8 = s.byteAt (s.pc.toNat + 1)

/-- R181, decision D20: a fetch at PC >= 4095 raises OutOfBounds, badaddr PC if PC >= 4096 and 4096 otherwise. -/
def Obligations.FetchFault : Prop :=
  ∀ s : State, s.err = none → 4095 ≤ s.pc.toNat →
    raises .outOfBounds s (cpuStep s) fun e => e.badaddr.toNat = if 4096 ≤ s.pc.toNat then s.pc.toNat else 4096

/-- R182: an illegal word raises DecodeError with that word. -/
def Obligations.DecodeFault : Prop :=
  ∀ (s : State) (r : Reject), s.err = none → s.pc.toNat + 1 ≤ 4095 → decodeWord s.wordAtPc = .error r →
    raises .decodeError s (cpuStep s) fun e => e.word = s.wordAtPc

/-- R184, R196 (the model's reading, log 6): while ERR is a record a STEP request does nothing to the machine; only the timer
and the environment move. -/
def Obligations.HaltedDoesNothing : Prop :=
  ∀ (s : State) (e : ErrRecord), s.err = some e →
    cpuStep s = .next s ∧ ∃ t, step s = .next t ∧ sameBut [.dt, .env] s t

/-- R183, R185, decision D8: a step that raises changes nothing but ERR. -/
def Obligations.RaiseChangesOnlyErr : Prop :=
  ∀ s t : State, s.err = none → cpuStep s = .next t → t.err ≠ none → t = { s with err := t.err }

/-- R187, R188, decisions D5, D8, D20, D21, D26: exactly the conditions of the table raise, in stage order, each with its kind, PC, raw word (unless the fetch
raised) and lowest out-of-range address; and the CPU's step always answers. The premise holds in every state a run
reaches (`StepKeepsInvariant`). -/
def Obligations.ExceptionCauses : Prop :=
  ∀ s : State, s.err = none → stackFits s.params.stackDepth s.stack = true → ∃ t, cpuStep s = .next t ∧
    match stepCause s with
    | none => t.err = none ∧ errCode t.err = 0#3
    | some k => ∃ e, t.err = some e ∧ e.kind = k ∧ (errCode t.err).toNat = kindCode k ∧ e.pc = s.pc ∧
        (s.pc.toNat < 4095 → e.word = s.wordAtPc) ∧
        (k = .outOfBounds → e.badaddr.toNat = lowestBad s)

/-- R219: a machine that is not halted can always take a step; an error record, once written, stays (R186). That the step of a halted
machine answers a next state too is the model's reading of R196 where U7 says stuck (log 6), and that no step ends in a fault
or a refusal is how the model holds every stop the spec describes (log 20). -/
def Obligations.StepAlwaysAnswers : Prop :=
  ∀ s : State, ∃ t, step s = .next t ∧ (s.err ≠ none → t.err = s.err)

/-! ## Invariants -/

/-- Every step keeps memory in canonical form, PC at most 4098, at most STACK_DEPTH stack entries, each at most 4096 (R25, R31). -/
def Obligations.StepKeepsInvariant : Prop :=
  ∀ s t : State, Inv s → step s = .next t → Inv t

/-- Every step leaves an error record, if there is one, that its state explains: the table of R187, read on the state the record
stands in, names its kind, its PC, its raw word (unless the fetch raised) and its lowest out-of-range address (R34, R183, R185).
`Inv` gives the stack's bound: STACK_DEPTH is met exactly (log 13). -/
def Obligations.StepKeepsErrExplained : Prop :=
  ∀ s t : State, Inv s → ErrExplained s → step s = .next t → ErrExplained t

/-- For every instance and every image that fits, every number of steps runs to its end, and the invariants hold there (R25, R31,
R34, R219): the inputs and the interleaving of the agents are free. That a run goes on past an error record, by steps in which
the CPU is idle, is the model's reading (log 6). -/
def Obligations.EveryRunKeepsInvariants : Prop :=
  ∀ (image : List Byte) (p : Config.Params) (s : State), boot image p = some s →
    ∀ n, ∃ t, Host.Core.run core n s = .next t ∧ Inv t ∧ ErrExplained t

/-- R227: what a step does to the core is determined by the core and the step's inputs: two machines that present the same KEY, RNG
byte and agent now, and differ only in what the environment will present later, stay equal. The premise also asks for the same number
of CPU steps so far, because that number indexes the free values of the ERR fields a raise leaves unspecified (log 5). -/
def Obligations.StepDependsOnlyOnCoreAndInputs : Prop :=
  ∀ s t s' : State, sameCore s t → sameInputs s t → step s = .next s' →
    ∃ t', step t = .next t' ∧ sameCore s' t'

/-- R197, R198, D23: only SKP and SKNP read KEY (RND among those that do not), only RND reads RNG (SKP and SKNP among those that do
not), and no instruction reads which agent is due: the others do the same whatever the environment presents there, and leave
it as it was. KEY, RNG and agents as scripts in State are the model's (log 1, 2, 3). -/
def Obligations.OtherInstructionsReadNoInput : Prop :=
  (∀ (i : Instr) (s t : State) (keys : List (Option Nibble)), (∀ x, i ≠ .skp x ∧ i ≠ .sknp x) → exec i s = .next t →
    t.env.keys = s.env.keys ∧
    exec i { s with env := { s.env with keys := keys } } = .next { t with env := { t.env with keys := keys } }) ∧
  (∀ (i : Instr) (s t : State) (rng : List Byte) (draws : Nat), (∀ x nn, i ≠ .rnd x nn) → exec i s = .next t →
    t.env.rng = s.env.rng ∧
    exec i { s with env := { s.env with rng := rng, draws := draws } } =
      .next { t with env := { t.env with rng := rng, draws := draws } }) ∧
  ∀ (i : Instr) (s t : State) (agents : List Config.Agent) (moves : Nat), exec i s = .next t →
    t.env.agents = s.env.agents ∧
    exec i { s with env := { s.env with agents := agents, moves := moves } } =
      .next { t with env := { t.env with agents := agents, moves := moves } }

/-- R20, R22, R30 to R33, R145, R194 a: which instructions may write each piece of state; every other one leaves it unchanged. None
writes the parameters (R227). The clause on the environment, which is the model's own and no state of R20 (log 2), says that
only RND consumes from the random source (R109, decision D23). -/
def Obligations.WritersOfEachPart : Prop :=
  ∀ (i : Instr) (s t : State), exec i s = .next t →
    ((∀ x, i ≠ .bcd x ∧ i ≠ .dump x) → agree s t .mem) ∧
    ((i ≠ .cls ∧ ∀ x y n, i ≠ .drw x y n) → agree s t .disp) ∧
    ((∀ x y n, i ≠ .drw x y n) → agree s t .coll) ∧
    ((i ≠ .ret ∧ ∀ nnn, i ≠ .call nnn) → agree s t .stack) ∧
    ((∀ nnn x, i ≠ .ldi nnn ∧ i ≠ .addi x ∧ i ≠ .font x ∧ i ≠ .dump x ∧ i ≠ .load x) → agree s t .i) ∧
    ((∀ x, i ≠ .setdt x) → agree s t .dt) ∧
    ((∀ x nn, i ≠ .rnd x nn) → agree s t .env) ∧ agree s t .params ∧
    ((∀ x y nn n, i ≠ .ld x nn ∧ i ≠ .add x nn ∧ i ≠ .mov x y ∧ i ≠ .and x y ∧ i ≠ .xor x y ∧ i ≠ .addr x y ∧
      i ≠ .sub x y ∧ i ≠ .shr x ∧ i ≠ .rnd x nn ∧ i ≠ .getdt x ∧ i ≠ .load x ∧ i ≠ .drw x y n) → agree s t .v)

/-- R26: ADDR, SUB, SHR and DRW are the only flag writers: any other instruction changes VF only where VF is its destination. -/
def Obligations.OnlyFlagWritersClobberVf : Prop :=
  ∀ (i : Instr) (s t : State), exec i s = .next t → t.reg vf ≠ s.reg vf →
    (∃ x y, i = .addr x y ∨ i = .sub x y ∨ i = .shr x) ∨ (∃ x y n, i = .drw x y n) ∨
    ∃ nn y, i = .ld vf nn ∨ i = .add vf nn ∨ i = .mov vf y ∨ i = .and vf y ∨ i = .xor vf y ∨ i = .rnd vf nn ∨
      i = .getdt vf ∨ i = .load vf

/-- R54: beside the fetch only BCD, DUMP, LOAD and DRW touch memory: any other instruction does the same whatever memory holds
(RET and CALL excepted where they raise, since ERR reports the raw word). -/
def Obligations.OtherInstructionsTouchNoMemory : Prop :=
  ∀ (i : Instr) (s t : State) (m : List Host.Cell),
    (∀ x, i ≠ .bcd x ∧ i ≠ .dump x ∧ i ≠ .load x) → (∀ x y n, i ≠ .drw x y n) →
    exec i s = .next t → execCause i s = none → stackFits s.params.stackDepth s.stack = true →
    t.mem = s.mem ∧ exec i { s with mem := m } = .next { t with mem := m }

/-- R33, R147: no instruction but DRW (which XORs cells) sees the display: any other but CLS does the same whatever it shows. -/
def Obligations.OnlyDrawSeesDisplay : Prop :=
  ∀ (i : Instr) (s t : State) (p : Plane), i ≠ .cls → (∀ x y n, i ≠ .drw x y n) → exec i s = .next t →
    exec i { s with plane := p } = .next { t with plane := p }

/-- R25, decision D11: PC stays even, and so does every stack entry, unless a JP or CALL with an odd target is executed. -/
def Obligations.EvenPcKept : Prop :=
  ∀ (i : Instr) (s t : State), (∀ nnn, i = .jp nnn ∨ i = .call nnn → nnn.toNat % 2 = 0) → exec i s = .next t →
    s.pc.toNat % 2 = 0 → (∀ a ∈ s.stack, a.toNat % 2 = 0) →
    t.pc.toNat % 2 = 0 ∧ ∀ a ∈ t.stack, a.toNat % 2 = 0

/-! ## The delay timer (spec/60_exceptions.md R191 to R194) -/

/-- R192 (decision D24): a tick counts down by one, stops at 0 and changes only DT; n ticks in a row subtract n, floored at 0. -/
def Obligations.TicksFloorAtZero : Prop :=
  (∀ s : State, s.tick.dt.toNat = s.dt.toNat - 1 ∧ sameBut [.dt] s s.tick) ∧
  ∀ (n : Nat) (s : State), (State.tick^[n] s).dt.toNat = s.dt.toNat - n ∧ sameBut [.dt] s (State.tick^[n] s)

/-- R194 a, b, d: a step in which the CPU does not execute a SETDT never raises DT: it takes one away where the timer moves and leaves
DT where the CPU moves; so a stopped timer stays stopped. A halted machine, a fetch fault and an illegal word execute nothing. Which
agent moves is the environment's free choice, held in State by the model (log 3). -/
def Obligations.TimerNeverRises : Prop :=
  ∀ s t : State, step s = .next t → (∀ x, s.mover = .cpu → ¬executes s (.setdt x)) →
    t.dt.toNat ≤ s.dt.toNat ∧ (s.mover = .timer → t.dt.toNat + 1 = s.dt.toNat) ∧ (s.mover = .cpu → t.dt = s.dt)

/-! ## Flow control (spec/40_flow.md) -/

/-- R91: RET pops the last entry into PC; on an empty stack it raises StackUnderflow and nothing else changes. -/
def Obligations.RetResult : Prop :=
  (∀ (s : State) (st : List Word) (a : Word), s.stack = st ++ [a] →
    ∃ t, exec .ret s = .next t ∧ t.pc = a ∧ t.stack = st ∧ sameBut [.pc, .stack] s t) ∧
  ∀ s : State, s.stack = [] → raises .stackUnderflow s (exec .ret s) fun e => e.word = s.wordAtPc

/-- R92: JP sets PC to the zero-extended address and changes nothing else. -/
def Obligations.JpResult : Prop :=
  ∀ (nnn : Addr) (s : State), ∃ t, exec (.jp nnn) s = .next t ∧ t.pc.toNat = nnn.toNat ∧ sameBut [.pc] s t

/-- R93: CALL pushes PC + 2 and sets PC; on a full stack (STACK_DEPTH entries, decision D5; never where the depth is unbounded) it raises
StackOverflow and nothing else changes. -/
def Obligations.CallResult : Prop :=
  (∀ (nnn : Addr) (s : State), stackHasRoom s →
    ∃ t, exec (.call nnn) s = .next t ∧ t.pc.toNat = nnn.toNat ∧ t.stack = s.stack ++ [s.pc + 2#16] ∧
      sameBut [.pc, .stack] s t) ∧
  ∀ (nnn : Addr) (s : State), stackAtDepth s →
    raises .stackOverflow s (exec (.call nnn) s) fun e => e.word = s.wordAtPc

/-- R91, R93: CALL then RET comes back to the instruction after the CALL, with the stack as it was; and after a CALL whose
target is a RET, the machine's own two steps do that. -/
def Obligations.CallThenRet : Prop :=
  ∀ (nnn : Addr) (s : State), stackHasRoom s →
    ∃ t u, exec (.call nnn) s = .next t ∧ exec .ret t = .next u ∧ u.pc = s.pc + 2#16 ∧ sameBut [.pc] s u ∧
      (s.err = none → nnn.toNat + 1 ≤ 4095 → decodeWord t.wordAtPc = .ok .ret → cpuStep t = .next u)

/-- R94: SE adds exactly 4 to PC where the register equals the immediate, else exactly 2, and changes nothing else. -/
def Obligations.SeResult : Prop :=
  ∀ (x : Nibble) (nn : Byte) (s : State), ∃ t, exec (.se x nn) s = .next t ∧
    (s.reg x = nn → t.pc = s.pc + 4#16) ∧ (s.reg x ≠ nn → t.pc = s.pc + 2#16) ∧ sameBut [.pc] s t

/-- R95: SNE is SE with the condition negated: on every state exactly one of the two skips. -/
def Obligations.SneResult : Prop :=
  ∀ (x : Nibble) (nn : Byte) (s : State), ∃ t, exec (.sne x nn) s = .next t ∧
    (s.reg x ≠ nn → t.pc = s.pc + 4#16) ∧ (s.reg x = nn → t.pc = s.pc + 2#16) ∧ sameBut [.pc] s t ∧
    ∃ u, exec (.se x nn) s = .next u ∧ (u.pc = s.pc + 4#16 ↔ t.pc = s.pc + 2#16)

/-! ## Registers and arithmetic (spec/41_alu.md) -/

/-- R101: LD writes the immediate. -/
def Obligations.LdResult : Prop :=
  ∀ (x : Nibble) (nn : Byte) (s : State), ∃ t, exec (.ld x nn) s = .next t ∧
    t.reg x = nn ∧ regsBut [x] s t ∧ t.pc = s.pc + 2#16 ∧ sameBut [.v, .pc] s t

/-- R102: ADD adds modulo 256 and writes no flag. -/
def Obligations.AddImmediateResult : Prop :=
  ∀ (x : Nibble) (nn : Byte) (s : State), ∃ t, exec (.add x nn) s = .next t ∧
    (t.reg x).toNat = ((s.reg x).toNat + nn.toNat) % 256 ∧ regsBut [x] s t ∧ t.pc = s.pc + 2#16 ∧ sameBut [.v, .pc] s t

/-- R103, R104, R105: MOV copies a register, AND and XOR work bit by bit; no flag. -/
def Obligations.MovAndXorResult : Prop :=
  ∀ (x y : Nibble) (s : State),
    (∃ t, exec (.mov x y) s = .next t ∧
      t.reg x = s.reg y ∧ regsBut [x] s t ∧ t.pc = s.pc + 2#16 ∧ sameBut [.v, .pc] s t) ∧
    (∃ t, exec (.and x y) s = .next t ∧
      (∀ k, (t.reg x).getLsbD k = ((s.reg x).getLsbD k && (s.reg y).getLsbD k)) ∧
      regsBut [x] s t ∧ t.pc = s.pc + 2#16 ∧ sameBut [.v, .pc] s t) ∧
    ∃ t, exec (.xor x y) s = .next t ∧
      (∀ k, (t.reg x).getLsbD k = ((s.reg x).getLsbD k ^^ (s.reg y).getLsbD k)) ∧
      regsBut [x] s t ∧ t.pc = s.pc + 2#16 ∧ sameBut [.v, .pc] s t

/-- R106: ADDR: sum modulo 256, then VF = 1 iff the sum exceeds 255; with x = 15 the flag wins (decision D6). -/
def Obligations.AddrResult : Prop :=
  ∀ (x y : Nibble) (s : State), ∃ t, exec (.addr x y) s = .next t ∧
    (x ≠ vf → (t.reg x).toNat = ((s.reg x).toNat + (s.reg y).toNat) % 256) ∧
    (t.reg vf = if 255 < (s.reg x).toNat + (s.reg y).toNat then 1#8 else 0#8) ∧
    regsBut [x, vf] s t ∧ t.pc = s.pc + 2#16 ∧ sameBut [.v, .pc] s t

/-- R107: SUB: difference modulo 256, then VF = 0 iff a borrow occurred; with x = 15 the flag wins (decision D6). -/
def Obligations.SubResult : Prop :=
  ∀ (x y : Nibble) (s : State), ∃ t, exec (.sub x y) s = .next t ∧
    (x ≠ vf → ((t.reg x).toNat : Int) = ((s.reg x).toNat - (s.reg y).toNat : Int) % 256) ∧
    (t.reg vf = if (s.reg y).toNat ≤ (s.reg x).toNat then 1#8 else 0#8) ∧
    regsBut [x, vf] s t ∧ t.pc = s.pc + 2#16 ∧ sameBut [.v, .pc] s t

/-- R108: SHR: logical shift right by one, then VF = the bit shifted out; with x = 15 the flag wins (decision D6). -/
def Obligations.ShrResult : Prop :=
  ∀ (x : Nibble) (s : State), ∃ t, exec (.shr x) s = .next t ∧
    (x ≠ vf → (t.reg x).toNat = (s.reg x).toNat / 2) ∧
    (t.reg vf).toNat = (s.reg x).toNat % 2 ∧
    regsBut [x, vf] s t ∧ t.pc = s.pc + 2#16 ∧ sameBut [.v, .pc] s t

/-- R109, decision D23: RND: the byte the random source presents (a free value, log 2) AND the immediate; exactly one byte is
consumed. -/
def Obligations.RndResult : Prop :=
  ∀ (x : Nibble) (nn : Byte) (s : State), ∃ t, exec (.rnd x nn) s = .next t ∧
    t.reg x = s.rngNow &&& nn ∧ regsBut [x] s t ∧ t.pc = s.pc + 2#16 ∧ sameBut [.v, .pc, .env] s t ∧
    t.env = { s.env with rng := s.env.rng.tail, draws := s.env.draws + 1 } ∧
    ∀ b rest, s.env.rng = b :: rest → t.reg x = b &&& nn ∧ t.env.rng = rest

/-! ## Address register and memory (spec/42_index_memory.md) -/

/-- R121: LDI. -/
def Obligations.LdiResult : Prop :=
  ∀ (nnn : Addr) (s : State), ∃ t, exec (.ldi nnn) s = .next t ∧
    t.i.toNat = nnn.toNat ∧ t.pc = s.pc + 2#16 ∧ sameBut [.i, .pc] s t

/-- R122: ADDI adds modulo 65536 (decision D13), no flag. -/
def Obligations.AddiResult : Prop :=
  ∀ (x : Nibble) (s : State), ∃ t, exec (.addi x) s = .next t ∧
    t.i.toNat = (s.i.toNat + (s.reg x).toNat) % 65536 ∧ t.pc = s.pc + 2#16 ∧ sameBut [.i, .pc] s t

/-- R123: FONT: five times the full register value (decision D28). -/
def Obligations.FontResult : Prop :=
  ∀ (x : Nibble) (s : State), ∃ t, exec (.font x) s = .next t ∧
    t.i.toNat = (s.reg x).toNat * 5 ∧ t.pc = s.pc + 2#16 ∧ sameBut [.i, .pc] s t

/-- R124: BCD stores the three digits at I, I + 1, I + 2 and nothing else; past the end of memory it raises OutOfBounds. Memory
in canonical form is the model's own premise, kept by every step. -/
def Obligations.BcdResult : Prop :=
  (∀ (x : Nibble) (s : State), Memory.wf s.params.font s.mem = true → s.i.toNat + 2 ≤ 4095 →
    ∃ t, exec (.bcd x) s = .next t ∧
      (t.byteAt s.i.toNat).toNat = (s.reg x).toNat / 100 ∧
      (t.byteAt (s.i.toNat + 1)).toNat = (s.reg x).toNat / 10 % 10 ∧
      (t.byteAt (s.i.toNat + 2)).toNat = (s.reg x).toNat % 10 ∧
      bytesOutside s.i.toNat 3 s t ∧ t.pc = s.pc + 2#16 ∧ sameBut [.mem, .pc] s t) ∧
  ∀ (x : Nibble) (s : State), 4095 < s.i.toNat + 2 → raisesData (.bcd x) s

/-- R125: DUMP stores V0..Vx from I upward and nothing else, and moves I past them; past the end of memory it raises. -/
def Obligations.DumpResult : Prop :=
  (∀ (x : Nibble) (s : State), Memory.wf s.params.font s.mem = true → s.i.toNat + x.toNat ≤ 4095 →
    ∃ t, exec (.dump x) s = .next t ∧
      (∀ k : Nibble, k.toNat ≤ x.toNat → t.byteAt (s.i.toNat + k.toNat) = s.reg k) ∧
      bytesOutside s.i.toNat (x.toNat + 1) s t ∧
      t.i.toNat = s.i.toNat + x.toNat + 1 ∧ t.pc = s.pc + 2#16 ∧ sameBut [.mem, .i, .pc] s t) ∧
  ∀ (x : Nibble) (s : State), 4095 < s.i.toNat + x.toNat → raisesData (.dump x) s

/-- R126: LOAD reads V0..Vx from I upward, leaves the other registers, and moves I; past the end of memory it raises. -/
def Obligations.LoadResult : Prop :=
  (∀ (x : Nibble) (s : State), s.i.toNat + x.toNat ≤ 4095 →
    ∃ t, exec (.load x) s = .next t ∧
      (∀ k : Nibble, t.reg k = if k.toNat ≤ x.toNat then s.byteAt (s.i.toNat + k.toNat) else s.reg k) ∧
      t.i.toNat = s.i.toNat + x.toNat + 1 ∧ t.pc = s.pc + 2#16 ∧ sameBut [.v, .i, .pc] s t) ∧
  ∀ (x : Nibble) (s : State), 4095 < s.i.toNat + x.toNat → raisesData (.load x) s

/-- R125, R126: what DUMP stored, LOAD from the same address reads back, into any register file. -/
def Obligations.DumpThenLoad : Prop :=
  ∀ (x : Nibble) (s : State) (v : Vector Byte 16), Memory.wf s.params.font s.mem = true → s.i.toNat + x.toNat ≤ 4095 →
    ∃ t u, exec (.dump x) s = .next t ∧ exec (.load x) { t with v := v, i := s.i } = .next u ∧
      u.i = t.i ∧ ∀ k : Nibble, u.reg k = if k.toNat ≤ x.toNat then s.reg k else v[k.toNat]'k.isLt

/-- R62: a store is seen by the very next fetch of the stored address: after a DUMP of two or more registers, the word at I is
V0 and V1, high byte first, wherever I points, the DUMP's own word included. -/
def Obligations.FetchSeesStore : Prop :=
  ∀ (x : Nibble) (s : State), Memory.wf s.params.font s.mem = true → 1 ≤ x.toNat → s.i.toNat + x.toNat ≤ 4095 →
    ∃ t, exec (.dump x) s = .next t ∧ (t.jump s.i).fetch = some (wordOfBytes (s.reg 0#4) (s.reg 1#4))

/-! ## Display (spec/43_display.md) -/

/-- R141: CLS clears every cell; COLL and VF are not written. -/
def Obligations.ClsResult : Prop :=
  ∀ s : State, ∃ t, exec .cls s = .next t ∧
    (∀ y x, t.plane.cell y x = false) ∧ t.pc = s.pc + 2#16 ∧ sameBut [.disp, .pc] s t

/-- R142: where a pixel is placed: under WRAP always, on both coordinates modulo the size; under CLIP exactly inside the display. -/
def Obligations.PixelPlacement : Prop :=
  (∀ x y, ∃ c, cellOf .wrap x y = some c ∧ c.1.val = y % 32 ∧ c.2.val = x % 64) ∧
  (∀ x y, x ≤ 63 ∧ y ≤ 31 → ∃ c, cellOf .clip x y = some c ∧ c.1.val = y ∧ c.2.val = x) ∧
  ∀ x y, ¬(x ≤ 63 ∧ y ≤ 31) → cellOf .clip x y = none

/-- R142, R143: the renderer, under either policy, XORs onto each cell exactly the sprite pixels of 1 that land there, and COLL
ends set iff a lit cell was hit. The loops of the rule equal this cell-by-cell description. -/
def Obligations.DrawXorsSprite : Prop :=
  ∀ (policy : Config.DrawPolicy) (x0 y0 : Nat) (sprite : List Byte) (p : Plane), sprite.length ≤ 15 →
    (∀ y x, (p.draw policy x0 y0 sprite).cell y x = (p.cell y x ^^ covers policy x0 y0 sprite y x)) ∧
    ((p.draw policy x0 y0 sprite).coll = true ↔ ∃ y x, p.cell y x = true ∧ covers policy x0 y0 sprite y x = true)

/-- R143: DRW, under the instance's DRAW_POLICY (a parameter, decision D4): cells, COLL, VF = COLL, and the frame; with n = 0 nothing is
drawn and it never raises; past the end of memory it raises OutOfBounds with nothing changed. -/
def Obligations.DrwResult : Prop :=
  (∀ (x y n : Nibble) (s : State), n = 0#4 ∨ s.i.toNat + n.toNat - 1 ≤ 4095 →
    ∃ t, exec (.drw x y n) s = .next t ∧
      (∀ py px, t.plane.cell py px =
        (s.plane.cell py px ^^ covers s.params.drawPolicy (s.reg x).toNat (s.reg y).toNat (spriteOf s n) py px)) ∧
      (t.plane.coll = true ↔ ∃ py px, s.plane.cell py px = true ∧
        covers s.params.drawPolicy (s.reg x).toNat (s.reg y).toNat (spriteOf s n) py px = true) ∧
      (t.reg vf = if t.plane.coll then 1#8 else 0#8) ∧ regsBut [vf] s t ∧ t.pc = s.pc + 2#16 ∧
      sameBut [.v, .pc, .disp, .coll] s t) ∧
  ∀ (x y n : Nibble) (s : State), 0 < n.toNat → 4095 < s.i.toNat + n.toNat - 1 → raisesData (.drw x y n) s

/-- R144: drawing the same sprite twice (x, y other than 15) restores the display, under either DRAW_POLICY (R142); the first
VF says that a placed pixel hit a lit cell, the second that one hit a cell unlit before the first. -/
def Obligations.DrawTwiceRestores : Prop :=
  ∀ (x y n : Nibble) (s : State), x ≠ vf → y ≠ vf → n = 0#4 ∨ s.i.toNat + n.toNat - 1 ≤ 4095 →
    ∃ t u, exec (.drw x y n) s = .next t ∧ exec (.drw x y n) t = .next u ∧
      u.plane.cells = s.plane.cells ∧
      (t.reg vf = 1#8 ↔ ∃ py px, s.plane.cell py px = true ∧
        covers s.params.drawPolicy (s.reg x).toNat (s.reg y).toNat (spriteOf s n) py px = true) ∧
      (u.reg vf = 1#8 ↔ ∃ py px, s.plane.cell py px = false ∧
        covers s.params.drawPolicy (s.reg x).toNat (s.reg y).toNat (spriteOf s n) py px = true)

/-! ## Keys and the timer's instructions (spec/44_key_timer.md) -/

/-- R161, R162, R166: SKP skips where the key numbered by the register, all 8 bits compared (decision D10), is held, SKNP where it is not.
R197: KEY is the snapshot the environment presents to this step; a STEP request uses it up, and a tick does not. That the
snapshots are a script in State is the model's choice (log 1). -/
def Obligations.KeySkips : Prop :=
  (∀ (x : Nibble) (s : State),
    (∃ t, exec (.skp x) s = .next t ∧ (keyHeld x s → t.pc = s.pc + 4#16) ∧ (¬keyHeld x s → t.pc = s.pc + 2#16) ∧
      sameBut [.pc] s t) ∧
    ∃ t, exec (.sknp x) s = .next t ∧ (¬keyHeld x s → t.pc = s.pc + 4#16) ∧ (keyHeld x s → t.pc = s.pc + 2#16) ∧
      sameBut [.pc] s t) ∧
  (∀ (x : Nibble) (s : State) (key : Option Nibble) (rest : List (Option Nibble)), s.env.keys = key :: rest →
    (keyHeld x s ↔ key.map BitVec.toNat = some (s.reg x).toNat)) ∧
  ∀ s t : State, step s = .next t →
    (s.mover = .cpu → t.env.keys = s.env.keys.tail ∧ t.env.steps = s.env.steps + 1) ∧
    (s.mover = .timer → t.env.keys = s.env.keys ∧ t.env.steps = s.env.steps)

/-- R163: GETDT reads DT without changing it (decision D9). -/
def Obligations.GetdtResult : Prop :=
  ∀ (x : Nibble) (s : State), ∃ t, exec (.getdt x) s = .next t ∧
    t.reg x = s.dt ∧ regsBut [x] s t ∧ t.pc = s.pc + 2#16 ∧ sameBut [.v, .pc] s t

/-- R164, R165: SETDT writes DT; SETST changes nothing but PC, whatever x. -/
def Obligations.SetdtAndSetstResult : Prop :=
  ∀ (x : Nibble) (s : State),
    (∃ t, exec (.setdt x) s = .next t ∧ t.dt = s.reg x ∧ t.pc = s.pc + 2#16 ∧ sameBut [.dt, .pc] s t) ∧
    ∃ t, exec (.setst x) s = .next t ∧ t.pc = s.pc + 2#16 ∧ sameBut [.pc] s t

/-! ## The end of a run (spec/70_reset_and_hazards.md R218) -/

/-- R218, R92: where a program has ended, every step leaves the whole core but DT unchanged, ticks alone change DT, and it stays ended. -/
def Obligations.EndedIsFixedPoint : Prop :=
  ∀ s : State, ended s = true → cpuStep s = .next s ∧
    ∃ t, step s = .next t ∧ sameBut [.dt, .env] s t ∧ ended t = true ∧
      (t.dt = s.dt ∨ t.dt.toNat + 1 = s.dt.toNat)
end

