-- ==== Sys2Proof/Laws/Encoding.lean ====
section
/-! SUPPORT. The fields of a word laid out in the formats of spec/30_encoding.md R72, a word as the concatenation of its fields,
and a word as the concatenation of its bytes. -/

namespace Sys2Proof

/-! ## Words as numbers -/

theorem encodeX_toNat (op x : Nibble) (nn : Byte) : (encodeX op x nn).toNat = op.toNat * 4096 + x.toNat * 256 + nn.toNat := by
  have h2 := x.isLt; have h3 := nn.isLt
  simp only [encodeX, BitVec.toNat_append]
  rw [← Nat.shiftLeft_add_eq_or_of_lt h3, ← Nat.shiftLeft_add_eq_or_of_lt h2]
  simp only [Nat.shiftLeft_eq]
  omega

theorem encodeXYN_toNat (op x y n : Nibble) :
    (encodeXYN op x y n).toNat = op.toNat * 4096 + x.toNat * 256 + y.toNat * 16 + n.toNat := by
  have h2 := x.isLt; have h3 := y.isLt; have h4 := n.isLt
  simp only [encodeXYN, BitVec.toNat_append]
  rw [← Nat.shiftLeft_add_eq_or_of_lt h4, ← Nat.shiftLeft_add_eq_or_of_lt h3, ← Nat.shiftLeft_add_eq_or_of_lt h2]
  simp only [Nat.shiftLeft_eq]
  omega

theorem encodeA_toNat (op : Nibble) (nnn : Addr) : (encodeA op nnn).toNat = op.toNat * 4096 + nnn.toNat := by
  have h2 := nnn.isLt
  simp only [encodeA, BitVec.toNat_append]
  rw [← Nat.shiftLeft_add_eq_or_of_lt h2]
  simp only [Nat.shiftLeft_eq]

theorem opField_toNat (w : Word) : (opField w).toNat = w.toNat / 4096 % 16 := by
  simp [opField, Nat.shiftRight_eq_div_pow]

theorem xField_toNat (w : Word) : (xField w).toNat = w.toNat / 256 % 16 := by
  simp [xField, Nat.shiftRight_eq_div_pow]

theorem yField_toNat (w : Word) : (yField w).toNat = w.toNat / 16 % 16 := by
  simp [yField, Nat.shiftRight_eq_div_pow]

theorem nField_toNat (w : Word) : (nField w).toNat = w.toNat % 16 := by
  simp [nField]

theorem nnField_toNat (w : Word) : (nnField w).toNat = w.toNat % 256 := by
  simp [nnField]

theorem nnnField_toNat (w : Word) : (nnnField w).toNat = w.toNat % 4096 := by
  simp [nnnField]

/-! ## The fields of a laid-out word -/

@[simp] theorem opField_encodeX (op x : Nibble) (nn : Byte) : opField (encodeX op x nn) = op := by
  apply BitVec.eq_of_toNat_eq
  have h1 := op.isLt; have h2 := x.isLt; have h3 := nn.isLt
  rw [opField_toNat, encodeX_toNat]; omega

@[simp] theorem xField_encodeX (op x : Nibble) (nn : Byte) : xField (encodeX op x nn) = x := by
  apply BitVec.eq_of_toNat_eq
  have h1 := op.isLt; have h2 := x.isLt; have h3 := nn.isLt
  rw [xField_toNat, encodeX_toNat]; omega

@[simp] theorem nnField_encodeX (op x : Nibble) (nn : Byte) : nnField (encodeX op x nn) = nn := by
  apply BitVec.eq_of_toNat_eq
  have h1 := op.isLt; have h2 := x.isLt; have h3 := nn.isLt
  rw [nnField_toNat, encodeX_toNat]; omega

@[simp] theorem opField_encodeXYN (op x y n : Nibble) : opField (encodeXYN op x y n) = op := by
  apply BitVec.eq_of_toNat_eq
  have h1 := op.isLt; have h2 := x.isLt; have h3 := y.isLt; have h4 := n.isLt
  rw [opField_toNat, encodeXYN_toNat]; omega

@[simp] theorem xField_encodeXYN (op x y n : Nibble) : xField (encodeXYN op x y n) = x := by
  apply BitVec.eq_of_toNat_eq
  have h1 := op.isLt; have h2 := x.isLt; have h3 := y.isLt; have h4 := n.isLt
  rw [xField_toNat, encodeXYN_toNat]; omega

@[simp] theorem yField_encodeXYN (op x y n : Nibble) : yField (encodeXYN op x y n) = y := by
  apply BitVec.eq_of_toNat_eq
  have h1 := op.isLt; have h2 := x.isLt; have h3 := y.isLt; have h4 := n.isLt
  rw [yField_toNat, encodeXYN_toNat]; omega

@[simp] theorem nField_encodeXYN (op x y n : Nibble) : nField (encodeXYN op x y n) = n := by
  apply BitVec.eq_of_toNat_eq
  have h1 := op.isLt; have h2 := x.isLt; have h3 := y.isLt; have h4 := n.isLt
  rw [nField_toNat, encodeXYN_toNat]; omega

@[simp] theorem opField_encodeA (op : Nibble) (nnn : Addr) : opField (encodeA op nnn) = op := by
  apply BitVec.eq_of_toNat_eq
  have h1 := op.isLt; have h2 := nnn.isLt
  rw [opField_toNat, encodeA_toNat]; omega

@[simp] theorem nnnField_encodeA (op : Nibble) (nnn : Addr) : nnnField (encodeA op nnn) = nnn := by
  apply BitVec.eq_of_toNat_eq
  have h1 := op.isLt; have h2 := nnn.isLt
  rw [nnnField_toNat, encodeA_toNat]; omega

/-! ## A word from its fields -/

theorem encodeX_fields (w : Word) : encodeX (opField w) (xField w) (nnField w) = w := by
  apply BitVec.eq_of_toNat_eq
  have h := w.isLt
  rw [encodeX_toNat, opField_toNat, xField_toNat, nnField_toNat]; omega

theorem encodeXYN_fields (w : Word) : encodeXYN (opField w) (xField w) (yField w) (nField w) = w := by
  apply BitVec.eq_of_toNat_eq
  have h := w.isLt
  rw [encodeXYN_toNat, opField_toNat, xField_toNat, yField_toNat, nField_toNat]; omega

theorem encodeA_fields (w : Word) : encodeA (opField w) (nnnField w) = w := by
  apply BitVec.eq_of_toNat_eq
  have h := w.isLt
  rw [encodeA_toNat, opField_toNat, nnnField_toNat]; omega

/-- The bytes of a word, most significant first, make the word again (spec/20_memory.md R50). -/
theorem wordOfBytes_extract (w : Word) : wordOfBytes (w.extractLsb' 8 8) (w.extractLsb' 0 8) = w := by
  apply BitVec.eq_of_toNat_eq
  have h := w.isLt
  have h2 := (w.extractLsb' 0 8).isLt
  simp only [wordOfBytes, BitVec.toNat_append]
  rw [← Nat.shiftLeft_add_eq_or_of_lt h2]
  simp [Nat.shiftLeft_eq, Nat.shiftRight_eq_div_pow]
  omega

/-! ## Masks of the opcode map -/

theorem and_ones (a : Nibble) : a &&& 0xF#4 = a := by
  revert a; decide

theorem and_ones8 (a : Byte) : a &&& 0xFF#8 = a := by
  revert a; decide

/-- The mask F000 keeps the family. -/
theorem encodeX_and_F000 (op x : Nibble) (nn : Byte) : encodeX op x nn &&& 0xF000#16 = encodeX op 0x0 0x00 := by
  have h : 0xF000#16 = (0xF#4 ++ 0x0#4 ++ 0x00#8 : Word) := rfl
  rw [h, encodeX, BitVec.and_append, BitVec.and_append, and_ones, BitVec.and_zero, BitVec.and_zero]
  rfl

/-- The mask F0FF keeps the family and the low byte. -/
theorem encodeX_and_F0FF (op x : Nibble) (nn : Byte) : encodeX op x nn &&& 0xF0FF#16 = encodeX op 0x0 nn := by
  have h : 0xF0FF#16 = (0xF#4 ++ 0x0#4 ++ 0xFF#8 : Word) := rfl
  rw [h, encodeX, BitVec.and_append, BitVec.and_append, and_ones, BitVec.and_zero, and_ones8]
  rfl

/-- The mask F00F keeps the family and the low nibble. -/
theorem encodeXYN_and_F00F (op x y n : Nibble) : encodeXYN op x y n &&& 0xF00F#16 = encodeXYN op 0x0 0x0 n := by
  have h : 0xF00F#16 = (0xF#4 ++ 0x0#4 ++ 0x0#4 ++ 0xF#4 : Word) := rfl
  rw [h, encodeXYN, BitVec.and_append, BitVec.and_append, BitVec.and_append, and_ones, BitVec.and_zero, BitVec.and_zero,
    and_ones]
  rfl

/-- The mask F000 keeps the family. -/
theorem encodeXYN_and_F000 (op x y n : Nibble) : encodeXYN op x y n &&& 0xF000#16 = encodeXYN op 0x0 0x0 0x0 := by
  have h : 0xF000#16 = (0xF#4 ++ 0x0#4 ++ 0x0#4 ++ 0x0#4 : Word) := rfl
  rw [h, encodeXYN, BitVec.and_append, BitVec.and_append, BitVec.and_append, and_ones, BitVec.and_zero, BitVec.and_zero,
    BitVec.and_zero]
  rfl

/-- The mask F000 keeps the family. -/
theorem encodeA_and_F000 (op : Nibble) (nnn : Addr) : encodeA op nnn &&& 0xF000#16 = encodeA op 0x000 := by
  have h : 0xF000#16 = (0xF#4 ++ 0x000#12 : Word) := rfl
  rw [h, encodeA, BitVec.and_append, and_ones, BitVec.and_zero]
  rfl

/-- A word of a family that is neither 0 nor 8 has no ignored bit. -/
theorem plain_of_op {w : Word} {op : Nibble} (h : opField w = op) (h0 : op ≠ 0x0#4) (h8 : op ≠ 0x8#4) :
    plainWord w = true := by
  rw [opField] at h
  simp [plainWord, plainZ, plainShr, h, h0, h8]

/-- A word of family 8 whose low nibble is not SHR's has no ignored bit. -/
theorem plain_of_n {w : Word} {n : Nibble} (h : opField w = 0x8#4) (hn : nField w = n) (h6 : n ≠ 0x6#4) :
    plainWord w = true := by
  rw [opField] at h
  rw [nField] at hn
  simp [plainWord, plainZ, plainShr, h, hn, h6]

end Sys2Proof
end

