-- ==== Sys2Proof/Laws/State.lean ====
section
/-! SUPPORT. The fields of a state after each update: one lemma per field per update, true by definition, so that no proof
unfolds a record update. -/

namespace Sys2Proof.Machine

variable (s : State)

@[simp] theorem State.setReg_params (x : Nibble) (b : Byte) : (s.setReg x b).params = s.params := rfl
@[simp] theorem State.setReg_v (x : Nibble) (b : Byte) : (s.setReg x b).v = s.v.set x.toNat b x.isLt := rfl
@[simp] theorem State.setReg_i (x : Nibble) (b : Byte) : (s.setReg x b).i = s.i := rfl
@[simp] theorem State.setReg_pc (x : Nibble) (b : Byte) : (s.setReg x b).pc = s.pc := rfl
@[simp] theorem State.setReg_stack (x : Nibble) (b : Byte) : (s.setReg x b).stack = s.stack := rfl
@[simp] theorem State.setReg_mem (x : Nibble) (b : Byte) : (s.setReg x b).mem = s.mem := rfl
@[simp] theorem State.setReg_dt (x : Nibble) (b : Byte) : (s.setReg x b).dt = s.dt := rfl
@[simp] theorem State.setReg_plane (x : Nibble) (b : Byte) : (s.setReg x b).plane = s.plane := rfl
@[simp] theorem State.setReg_err (x : Nibble) (b : Byte) : (s.setReg x b).err = s.err := rfl
@[simp] theorem State.setReg_env (x : Nibble) (b : Byte) : (s.setReg x b).env = s.env := rfl

@[simp] theorem State.setI_params (a : Word) : (s.setI a).params = s.params := rfl
@[simp] theorem State.setI_v (a : Word) : (s.setI a).v = s.v := rfl
@[simp] theorem State.setI_i (a : Word) : (s.setI a).i = a := rfl
@[simp] theorem State.setI_pc (a : Word) : (s.setI a).pc = s.pc := rfl
@[simp] theorem State.setI_stack (a : Word) : (s.setI a).stack = s.stack := rfl
@[simp] theorem State.setI_mem (a : Word) : (s.setI a).mem = s.mem := rfl
@[simp] theorem State.setI_dt (a : Word) : (s.setI a).dt = s.dt := rfl
@[simp] theorem State.setI_plane (a : Word) : (s.setI a).plane = s.plane := rfl
@[simp] theorem State.setI_err (a : Word) : (s.setI a).err = s.err := rfl
@[simp] theorem State.setI_env (a : Word) : (s.setI a).env = s.env := rfl

@[simp] theorem State.setDt_params (b : Byte) : (s.setDt b).params = s.params := rfl
@[simp] theorem State.setDt_v (b : Byte) : (s.setDt b).v = s.v := rfl
@[simp] theorem State.setDt_i (b : Byte) : (s.setDt b).i = s.i := rfl
@[simp] theorem State.setDt_pc (b : Byte) : (s.setDt b).pc = s.pc := rfl
@[simp] theorem State.setDt_stack (b : Byte) : (s.setDt b).stack = s.stack := rfl
@[simp] theorem State.setDt_mem (b : Byte) : (s.setDt b).mem = s.mem := rfl
@[simp] theorem State.setDt_dt (b : Byte) : (s.setDt b).dt = b := rfl
@[simp] theorem State.setDt_plane (b : Byte) : (s.setDt b).plane = s.plane := rfl
@[simp] theorem State.setDt_err (b : Byte) : (s.setDt b).err = s.err := rfl
@[simp] theorem State.setDt_env (b : Byte) : (s.setDt b).env = s.env := rfl

@[simp] theorem State.setPlane_params (p : Plane) : (s.setPlane p).params = s.params := rfl
@[simp] theorem State.setPlane_v (p : Plane) : (s.setPlane p).v = s.v := rfl
@[simp] theorem State.setPlane_i (p : Plane) : (s.setPlane p).i = s.i := rfl
@[simp] theorem State.setPlane_pc (p : Plane) : (s.setPlane p).pc = s.pc := rfl
@[simp] theorem State.setPlane_stack (p : Plane) : (s.setPlane p).stack = s.stack := rfl
@[simp] theorem State.setPlane_mem (p : Plane) : (s.setPlane p).mem = s.mem := rfl
@[simp] theorem State.setPlane_dt (p : Plane) : (s.setPlane p).dt = s.dt := rfl
@[simp] theorem State.setPlane_plane (p : Plane) : (s.setPlane p).plane = p := rfl
@[simp] theorem State.setPlane_err (p : Plane) : (s.setPlane p).err = s.err := rfl
@[simp] theorem State.setPlane_env (p : Plane) : (s.setPlane p).env = s.env := rfl

@[simp] theorem State.jump_params (a : Word) : (s.jump a).params = s.params := rfl
@[simp] theorem State.jump_v (a : Word) : (s.jump a).v = s.v := rfl
@[simp] theorem State.jump_i (a : Word) : (s.jump a).i = s.i := rfl
@[simp] theorem State.jump_pc (a : Word) : (s.jump a).pc = a := rfl
@[simp] theorem State.jump_stack (a : Word) : (s.jump a).stack = s.stack := rfl
@[simp] theorem State.jump_mem (a : Word) : (s.jump a).mem = s.mem := rfl
@[simp] theorem State.jump_dt (a : Word) : (s.jump a).dt = s.dt := rfl
@[simp] theorem State.jump_plane (a : Word) : (s.jump a).plane = s.plane := rfl
@[simp] theorem State.jump_err (a : Word) : (s.jump a).err = s.err := rfl
@[simp] theorem State.jump_env (a : Word) : (s.jump a).env = s.env := rfl

@[simp] theorem State.push_params (a : Word) : (s.push a).params = s.params := rfl
@[simp] theorem State.push_v (a : Word) : (s.push a).v = s.v := rfl
@[simp] theorem State.push_i (a : Word) : (s.push a).i = s.i := rfl
@[simp] theorem State.push_pc (a : Word) : (s.push a).pc = s.pc := rfl
@[simp] theorem State.push_stack (a : Word) : (s.push a).stack = s.stack ++ [a] := rfl
@[simp] theorem State.push_mem (a : Word) : (s.push a).mem = s.mem := rfl
@[simp] theorem State.push_dt (a : Word) : (s.push a).dt = s.dt := rfl
@[simp] theorem State.push_plane (a : Word) : (s.push a).plane = s.plane := rfl
@[simp] theorem State.push_err (a : Word) : (s.push a).err = s.err := rfl
@[simp] theorem State.push_env (a : Word) : (s.push a).env = s.env := rfl

@[simp] theorem State.storeBytes_params (a : Nat) (bs : List Byte) : (s.storeBytes a bs).params = s.params := rfl
@[simp] theorem State.storeBytes_v (a : Nat) (bs : List Byte) : (s.storeBytes a bs).v = s.v := rfl
@[simp] theorem State.storeBytes_i (a : Nat) (bs : List Byte) : (s.storeBytes a bs).i = s.i := rfl
@[simp] theorem State.storeBytes_pc (a : Nat) (bs : List Byte) : (s.storeBytes a bs).pc = s.pc := rfl
@[simp] theorem State.storeBytes_stack (a : Nat) (bs : List Byte) : (s.storeBytes a bs).stack = s.stack := rfl
@[simp] theorem State.storeBytes_mem (a : Nat) (bs : List Byte) : (s.storeBytes a bs).mem = Memory.writeBytes s.params.font s.mem a bs := rfl
@[simp] theorem State.storeBytes_dt (a : Nat) (bs : List Byte) : (s.storeBytes a bs).dt = s.dt := rfl
@[simp] theorem State.storeBytes_plane (a : Nat) (bs : List Byte) : (s.storeBytes a bs).plane = s.plane := rfl
@[simp] theorem State.storeBytes_err (a : Nat) (bs : List Byte) : (s.storeBytes a bs).err = s.err := rfl
@[simp] theorem State.storeBytes_env (a : Nat) (bs : List Byte) : (s.storeBytes a bs).env = s.env := rfl

@[simp] theorem State.loadRegs_params (bs : List Byte) : (s.loadRegs bs).params = s.params := rfl
@[simp] theorem State.loadRegs_v (bs : List Byte) : (s.loadRegs bs).v = writeRegs 0 bs s.v := rfl
@[simp] theorem State.loadRegs_i (bs : List Byte) : (s.loadRegs bs).i = s.i := rfl
@[simp] theorem State.loadRegs_pc (bs : List Byte) : (s.loadRegs bs).pc = s.pc := rfl
@[simp] theorem State.loadRegs_stack (bs : List Byte) : (s.loadRegs bs).stack = s.stack := rfl
@[simp] theorem State.loadRegs_mem (bs : List Byte) : (s.loadRegs bs).mem = s.mem := rfl
@[simp] theorem State.loadRegs_dt (bs : List Byte) : (s.loadRegs bs).dt = s.dt := rfl
@[simp] theorem State.loadRegs_plane (bs : List Byte) : (s.loadRegs bs).plane = s.plane := rfl
@[simp] theorem State.loadRegs_err (bs : List Byte) : (s.loadRegs bs).err = s.err := rfl
@[simp] theorem State.loadRegs_env (bs : List Byte) : (s.loadRegs bs).env = s.env := rfl

@[simp] theorem State.drawRng_params : (s.drawRng).params = s.params := rfl
@[simp] theorem State.drawRng_v : (s.drawRng).v = s.v := rfl
@[simp] theorem State.drawRng_i : (s.drawRng).i = s.i := rfl
@[simp] theorem State.drawRng_pc : (s.drawRng).pc = s.pc := rfl
@[simp] theorem State.drawRng_stack : (s.drawRng).stack = s.stack := rfl
@[simp] theorem State.drawRng_mem : (s.drawRng).mem = s.mem := rfl
@[simp] theorem State.drawRng_dt : (s.drawRng).dt = s.dt := rfl
@[simp] theorem State.drawRng_plane : (s.drawRng).plane = s.plane := rfl
@[simp] theorem State.drawRng_err : (s.drawRng).err = s.err := rfl
@[simp] theorem State.drawRng_env : (s.drawRng).env = { s.env with rng := s.env.rng.tail, draws := s.env.draws + 1 } := rfl

@[simp] theorem State.endMove_params : s.endMove.params = s.params := rfl
@[simp] theorem State.endMove_v : s.endMove.v = s.v := rfl
@[simp] theorem State.endMove_i : s.endMove.i = s.i := rfl
@[simp] theorem State.endMove_pc : s.endMove.pc = s.pc := rfl
@[simp] theorem State.endMove_stack : s.endMove.stack = s.stack := rfl
@[simp] theorem State.endMove_mem : s.endMove.mem = s.mem := rfl
@[simp] theorem State.endMove_dt : s.endMove.dt = s.dt := rfl
@[simp] theorem State.endMove_plane : s.endMove.plane = s.plane := rfl
@[simp] theorem State.endMove_err : s.endMove.err = s.err := rfl
@[simp] theorem State.endMove_env : s.endMove.env = { s.env with agents := s.env.agents.tail, moves := s.env.moves + 1 } := rfl

@[simp] theorem State.endRequest_params : s.endRequest.params = s.params := rfl
@[simp] theorem State.endRequest_v : s.endRequest.v = s.v := rfl
@[simp] theorem State.endRequest_i : s.endRequest.i = s.i := rfl
@[simp] theorem State.endRequest_pc : s.endRequest.pc = s.pc := rfl
@[simp] theorem State.endRequest_stack : s.endRequest.stack = s.stack := rfl
@[simp] theorem State.endRequest_mem : s.endRequest.mem = s.mem := rfl
@[simp] theorem State.endRequest_dt : s.endRequest.dt = s.dt := rfl
@[simp] theorem State.endRequest_plane : s.endRequest.plane = s.plane := rfl
@[simp] theorem State.endRequest_err : s.endRequest.err = s.err := rfl
@[simp] theorem State.endRequest_env : s.endRequest.env = { s.env with keys := s.env.keys.tail, steps := s.env.steps + 1 } := rfl

@[simp] theorem State.tick_params : s.tick.params = s.params := rfl
@[simp] theorem State.tick_v : s.tick.v = s.v := rfl
@[simp] theorem State.tick_i : s.tick.i = s.i := rfl
@[simp] theorem State.tick_pc : s.tick.pc = s.pc := rfl
@[simp] theorem State.tick_stack : s.tick.stack = s.stack := rfl
@[simp] theorem State.tick_mem : s.tick.mem = s.mem := rfl
@[simp] theorem State.tick_plane : s.tick.plane = s.plane := rfl
@[simp] theorem State.tick_err : s.tick.err = s.err := rfl
@[simp] theorem State.tick_env : s.tick.env = s.env := rfl
@[simp] theorem State.tick_dt : s.tick.dt = tickDown s.dt := rfl

@[simp] theorem State.advance_params : (s.advance).params = s.params := rfl
@[simp] theorem State.advance_v : (s.advance).v = s.v := rfl
@[simp] theorem State.advance_i : (s.advance).i = s.i := rfl
@[simp] theorem State.advance_pc : (s.advance).pc = s.pc + 2#16 := rfl
@[simp] theorem State.advance_stack : (s.advance).stack = s.stack := rfl
@[simp] theorem State.advance_mem : (s.advance).mem = s.mem := rfl
@[simp] theorem State.advance_dt : (s.advance).dt = s.dt := rfl
@[simp] theorem State.advance_plane : (s.advance).plane = s.plane := rfl
@[simp] theorem State.advance_err : (s.advance).err = s.err := rfl
@[simp] theorem State.advance_env : (s.advance).env = s.env := rfl

@[simp] theorem State.skipIf_params (c : Bool) : (s.skipIf c).params = s.params := rfl
@[simp] theorem State.skipIf_v (c : Bool) : (s.skipIf c).v = s.v := rfl
@[simp] theorem State.skipIf_i (c : Bool) : (s.skipIf c).i = s.i := rfl
@[simp] theorem State.skipIf_pc (c : Bool) : (s.skipIf c).pc = s.pc + if c then 4#16 else 2#16 := rfl
@[simp] theorem State.skipIf_stack (c : Bool) : (s.skipIf c).stack = s.stack := rfl
@[simp] theorem State.skipIf_mem (c : Bool) : (s.skipIf c).mem = s.mem := rfl
@[simp] theorem State.skipIf_dt (c : Bool) : (s.skipIf c).dt = s.dt := rfl
@[simp] theorem State.skipIf_plane (c : Bool) : (s.skipIf c).plane = s.plane := rfl
@[simp] theorem State.skipIf_err (c : Bool) : (s.skipIf c).err = s.err := rfl
@[simp] theorem State.skipIf_env (c : Bool) : (s.skipIf c).env = s.env := rfl

@[simp] theorem State.moveI_params (n : Nat) : (s.moveI n).params = s.params := rfl
@[simp] theorem State.moveI_v (n : Nat) : (s.moveI n).v = s.v := rfl
@[simp] theorem State.moveI_i (n : Nat) : (s.moveI n).i = s.i + BitVec.ofNat 16 n := rfl
@[simp] theorem State.moveI_pc (n : Nat) : (s.moveI n).pc = s.pc := rfl
@[simp] theorem State.moveI_stack (n : Nat) : (s.moveI n).stack = s.stack := rfl
@[simp] theorem State.moveI_mem (n : Nat) : (s.moveI n).mem = s.mem := rfl
@[simp] theorem State.moveI_dt (n : Nat) : (s.moveI n).dt = s.dt := rfl
@[simp] theorem State.moveI_plane (n : Nat) : (s.moveI n).plane = s.plane := rfl
@[simp] theorem State.moveI_err (n : Nat) : (s.moveI n).err = s.err := rfl
@[simp] theorem State.moveI_env (n : Nat) : (s.moveI n).env = s.env := rfl

/-! ## Registers and memory bytes under the updates that leave them alone -/

@[simp] theorem State.setReg_byteAt (x : Nibble) (b : Byte) (k : Nat) : (s.setReg x b).byteAt k = s.byteAt k := rfl
@[simp] theorem State.setI_reg (a : Word) (r : Nibble) : (s.setI a).reg r = s.reg r := rfl
@[simp] theorem State.setI_byteAt (a : Word) (k : Nat) : (s.setI a).byteAt k = s.byteAt k := rfl
@[simp] theorem State.setDt_reg (b : Byte) (r : Nibble) : (s.setDt b).reg r = s.reg r := rfl
@[simp] theorem State.setDt_byteAt (b : Byte) (k : Nat) : (s.setDt b).byteAt k = s.byteAt k := rfl
@[simp] theorem State.setPlane_reg (p : Plane) (r : Nibble) : (s.setPlane p).reg r = s.reg r := rfl
@[simp] theorem State.setPlane_byteAt (p : Plane) (k : Nat) : (s.setPlane p).byteAt k = s.byteAt k := rfl
@[simp] theorem State.jump_reg (a : Word) (r : Nibble) : (s.jump a).reg r = s.reg r := rfl
@[simp] theorem State.jump_byteAt (a : Word) (k : Nat) : (s.jump a).byteAt k = s.byteAt k := rfl
@[simp] theorem State.push_reg (a : Word) (r : Nibble) : (s.push a).reg r = s.reg r := rfl
@[simp] theorem State.push_byteAt (a : Word) (k : Nat) : (s.push a).byteAt k = s.byteAt k := rfl
@[simp] theorem State.storeBytes_reg (a : Nat) (bs : List Byte) (r : Nibble) : (s.storeBytes a bs).reg r = s.reg r := rfl
@[simp] theorem State.loadRegs_byteAt (bs : List Byte) (k : Nat) : (s.loadRegs bs).byteAt k = s.byteAt k := rfl
@[simp] theorem State.drawRng_reg (r : Nibble) : (s.drawRng).reg r = s.reg r := rfl
@[simp] theorem State.drawRng_byteAt (k : Nat) : (s.drawRng).byteAt k = s.byteAt k := rfl
@[simp] theorem State.endMove_reg (r : Nibble) : s.endMove.reg r = s.reg r := rfl
@[simp] theorem State.endMove_byteAt (k : Nat) : s.endMove.byteAt k = s.byteAt k := rfl
@[simp] theorem State.endRequest_reg (r : Nibble) : s.endRequest.reg r = s.reg r := rfl
@[simp] theorem State.endRequest_byteAt (k : Nat) : s.endRequest.byteAt k = s.byteAt k := rfl
@[simp] theorem State.tick_reg (r : Nibble) : s.tick.reg r = s.reg r := rfl
@[simp] theorem State.tick_byteAt (k : Nat) : s.tick.byteAt k = s.byteAt k := rfl
@[simp] theorem State.advance_reg (r : Nibble) : (s.advance).reg r = s.reg r := rfl
@[simp] theorem State.advance_byteAt (k : Nat) : (s.advance).byteAt k = s.byteAt k := rfl
@[simp] theorem State.skipIf_reg (c : Bool) (r : Nibble) : (s.skipIf c).reg r = s.reg r := rfl
@[simp] theorem State.skipIf_byteAt (c : Bool) (k : Nat) : (s.skipIf c).byteAt k = s.byteAt k := rfl
@[simp] theorem State.moveI_reg (n : Nat) (r : Nibble) : (s.moveI n).reg r = s.reg r := rfl
@[simp] theorem State.moveI_byteAt (n : Nat) (k : Nat) : (s.moveI n).byteAt k = s.byteAt k := rfl

end Sys2Proof.Machine
end

