-- ==== Sys2Proof/Laws/Ops.lean ====
section
/-! SUPPORT. What each shared operation does, said once: memory, registers, stack, raising, the block check. -/

namespace Sys2Proof.Machine

variable {font : Config.Font}

/-! ## Memory -/

theorem Memory.read_put (a : Nat) (v : Byte) (rest : List Host.Cell) (hr : Memory.read font rest a = Memory.initial font a) (b : Nat) :
    Memory.read font (Memory.put font a v rest) b = if b = a then v else Memory.read font rest b := by
  unfold Memory.put
  by_cases h : v = Memory.initial font a
  · by_cases hb : b = a
    · subst hb; simp [h, hr]
    · simp [h, hb]
  · simp [h, Memory.read]

/-- Below the first listed address every byte reads as the reset content. -/
theorem Memory.read_below {lo a : Nat} {m : List Host.Cell} (h : Memory.wfFrom font lo m = true) (ha : a < lo) :
    Memory.read font m a = Memory.initial font a := by
  induction m generalizing lo with
  | nil => rfl
  | cons c rest ih =>
    obtain ⟨b, v⟩ := c
    simp only [Memory.wfFrom, Bool.and_eq_true, decide_eq_true_eq] at h
    obtain ⟨⟨⟨hlo, _⟩, _⟩, hrest⟩ := h
    have hne : a ≠ b := by omega
    simp only [Memory.read, if_neg hne]
    exact ih hrest (by omega)

/-- Read after write, on memory in canonical form. -/
theorem Memory.read_write {lo : Nat} {m : List Host.Cell} (h : Memory.wfFrom font lo m = true) (a : Nat) (v : Byte) (b : Nat) :
    Memory.read font (Memory.write font m a v) b = if b = a then v else Memory.read font m b := by
  induction m generalizing lo with
  | nil => exact Memory.read_put a v [] rfl b
  | cons c rest ih =>
    obtain ⟨d, w⟩ := c
    have h' := h
    simp only [Memory.wfFrom, Bool.and_eq_true, decide_eq_true_eq] at h'
    obtain ⟨_, hrest⟩ := h'
    unfold Memory.write
    by_cases h1 : a < d
    · rw [if_pos h1]
      refine Memory.read_put a v _ ?_ b
      have hne : a ≠ d := by omega
      rw [Memory.read, if_neg hne]
      exact Memory.read_below hrest (by omega)
    · rw [if_neg h1]
      by_cases h2 : a = d
      · subst h2
        rw [if_pos rfl, Memory.read_put a v rest (Memory.read_below hrest (by omega)) b]
        by_cases hb : b = a <;> simp [Memory.read, hb]
      · rw [if_neg h2]
        by_cases hb : b = d
        · subst hb
          have : b ≠ a := fun e => h2 e.symm
          simp [Memory.read, this]
        · simp only [Memory.read, if_neg hb]
          exact ih hrest

theorem Memory.wfFrom_weaken {lo lo' : Nat} {m : List Host.Cell} (h : Memory.wfFrom font lo m = true) (hl : lo' ≤ lo) :
    Memory.wfFrom font lo' m = true := by
  cases m with
  | nil => rfl
  | cons c rest =>
    obtain ⟨a, v⟩ := c
    simp only [Memory.wfFrom, Bool.and_eq_true, decide_eq_true_eq] at h ⊢
    exact ⟨⟨⟨by omega, h.1.1.2⟩, h.1.2⟩, h.2⟩

theorem Memory.wfFrom_put {lo a : Nat} {v : Byte} {rest : List Host.Cell} (h : Memory.wfFrom font (a + 1) rest = true)
    (hl : lo ≤ a) (ha : a < Config.memSize) : Memory.wfFrom font lo (Memory.put font a v rest) = true := by
  unfold Memory.put
  split
  · exact Memory.wfFrom_weaken h (by omega)
  · rename_i hv
    simp [Memory.wfFrom, hl, ha, hv, h]

/-- A write below MEM_SIZE keeps the canonical form. -/
theorem Memory.wfFrom_write {lo a : Nat} {m : List Host.Cell} (h : Memory.wfFrom font lo m = true) (hl : lo ≤ a)
    (ha : a < Config.memSize) (v : Byte) : Memory.wfFrom font lo (Memory.write font m a v) = true := by
  induction m generalizing lo with
  | nil => exact Memory.wfFrom_put rfl hl ha
  | cons c rest ih =>
    obtain ⟨d, w⟩ := c
    have h' := h
    simp only [Memory.wfFrom, Bool.and_eq_true, decide_eq_true_eq] at h'
    obtain ⟨⟨⟨h1, h2⟩, h3⟩, hrest⟩ := h'
    unfold Memory.write
    split
    · rename_i hlt
      refine Memory.wfFrom_put ?_ hl ha
      simp [Memory.wfFrom, h2, h3, hrest, Nat.succ_le_of_lt hlt]
    · split
      · rename_i _ he
        subst he
        exact Memory.wfFrom_put hrest hl ha
      · simp [Memory.wfFrom, h1, h2, h3, ih hrest (by omega)]

theorem Memory.wf_write {m : List Host.Cell} (h : Memory.wf font m = true) {a : Nat} (ha : a < Config.memSize) (v : Byte) :
    Memory.wf font (Memory.write font m a v) = true := Memory.wfFrom_write h (Nat.zero_le a) ha v

/-- Stores that stay below MEM_SIZE keep the canonical form. -/
theorem Memory.wf_writeBytes {m : List Host.Cell} (h : Memory.wf font m = true) (vs : List Byte) (a : Nat)
    (ha : a + vs.length ≤ Config.memSize) : Memory.wf font (Memory.writeBytes font m a vs) = true := by
  induction vs generalizing m a with
  | nil => exact h
  | cons v vs ih =>
    simp only [List.length_cons] at ha
    exact ih (Memory.wf_write h (by omega) v) (a + 1) (by omega)

/-- Read after a store of bytes, on memory in canonical form and a store inside memory. -/
theorem Memory.read_writeBytes {m : List Host.Cell} (h : Memory.wf font m = true) (vs : List Byte) (a : Nat)
    (ha : a + vs.length ≤ Config.memSize) (b : Nat) :
    Memory.read font (Memory.writeBytes font m a vs) b =
      if a ≤ b ∧ b < a + vs.length then vs.getD (b - a) 0#8 else Memory.read font m b := by
  induction vs generalizing m a with
  | nil =>
    have : ¬(a ≤ b ∧ b < a + 0) := by omega
    rw [List.length_nil, if_neg this]
    rfl
  | cons v vs ih =>
    simp only [List.length_cons] at ha
    rw [Memory.writeBytes, ih (Memory.wf_write h (by omega) v) (a + 1) (by omega), Memory.read_write h]
    simp only [List.length_cons]
    by_cases hb : b = a
    · subst hb
      rw [if_neg (by omega), if_pos rfl, if_pos (by omega)]
      simp
    · by_cases hin : a + 1 ≤ b ∧ b < a + 1 + vs.length
      · obtain ⟨k, hk⟩ : ∃ k, b - a = k + 1 := ⟨b - a - 1, by omega⟩
        have hk' : b - (a + 1) = k := by omega
        rw [if_pos hin, if_pos (by omega), hk, hk', List.getD_cons_succ]
      · rw [if_neg hin, if_neg hb, if_neg (by omega)]

/-- Reset memory lists nothing, so it is in canonical form whatever the font. -/
theorem Memory.wf_reset : Memory.wf font State.reset.mem = true := rfl

/-! ## Registers -/

@[simp] theorem State.reg_setReg (s : State) (x r : Nibble) (b : Byte) :
    (s.setReg x b).reg r = if r = x then b else s.reg r := by
  simp only [State.reg, State.setReg, Vector.getElem_set]
  by_cases h : r = x
  · simp [h]
  · have : x.toNat ≠ r.toNat := fun e => h (BitVec.eq_of_toNat_eq e.symm)
    simp [h, this]

/-- A register reads the same in two states with the same register file. -/
theorem State.reg_congr {s t : State} (h : t.v = s.v) (r : Nibble) : t.reg r = s.reg r := by
  simp [State.reg, h]

theorem writeRegs_get (bs : List Byte) (k : Nat) (v : Vector Byte 16) (j : Nat) (hj : j < 16) :
    (writeRegs k bs v)[j] = if k ≤ j ∧ j < k + bs.length then bs.getD (j - k) 0#8 else v[j] := by
  induction bs generalizing k v with
  | nil =>
    have : ¬(k ≤ j ∧ j < k + 0) := by omega
    rw [List.length_nil, if_neg this]
    rfl
  | cons b bs ih =>
    rw [writeRegs, ih, Vector.getElem_setIfInBounds]
    simp only [List.length_cons]
    by_cases hjk : k = j
    · subst hjk
      rw [if_neg (by omega), if_pos rfl, if_pos (by omega)]
      simp
    · by_cases hin : k + 1 ≤ j ∧ j < k + 1 + bs.length
      · obtain ⟨d, hd⟩ : ∃ d, j - k = d + 1 := ⟨j - k - 1, by omega⟩
        have hd' : j - (k + 1) = d := by omega
        rw [if_pos hin, if_pos (by omega), hd, hd', List.getD_cons_succ]
      · rw [if_neg hin, if_neg hjk, if_neg (by omega)]

/-- Registers after a load of bytes from V0 up. -/
theorem State.reg_loadRegs (s : State) (bs : List Byte) (r : Nibble) :
    (s.loadRegs bs).reg r = if r.toNat < bs.length then bs.getD r.toNat 0#8 else s.reg r := by
  simp only [State.reg, State.loadRegs, writeRegs_get bs 0 s.v r.toNat r.isLt]
  simp

@[simp] theorem State.regsUpTo_length (s : State) (n : Nat) (h : n ≤ 16) : (s.regsUpTo n).length = n := by
  simp [State.regsUpTo, h]

@[simp] theorem State.bytesAt_length (s : State) (a n : Nat) : (s.bytesAt a n).length = n := by
  simp [State.bytesAt]

@[simp] theorem digits_length (v : Byte) : (digits v).length = 3 := rfl

/-! ## Stack -/

@[simp] theorem State.pop_push (s : State) (a : Word) : (s.push a).pop = some (a, s) := by
  simp [State.pop, State.push]

/-- `pop` answers exactly where the stack is not empty. -/
theorem State.pop_cases (s : State) :
    (s.stack = [] ∧ s.pop = none) ∨
    ∃ st a, s.stack = st ++ [a] ∧ s.pop = some (a, { s with stack := st }) := by
  rcases List.eq_nil_or_concat s.stack with h | ⟨st, a, h⟩
  · exact .inl ⟨h, by simp [State.pop, h]⟩
  · exact .inr ⟨st, a, by simpa using h, by simp [State.pop, h]⟩

/-! ## Raising and the block check -/

/-- `raise` answers a next state in which only ERR changed. -/
theorem raise_next {k : ErrKind} {w : Word} {b : BitVec 17} {s t : State} (h : raise k w b s = .next t) :
    t = { s with err := some { kind := k, pc := s.pc, word := w, badaddr := b } } := by
  injection h with h
  exact h.symm

@[simp] theorem badAddr_toNat (a : Word) : (badAddr a).toNat = max a.toNat 4096 := by
  have := a.isLt
  simp only [badAddr, Config.memSize, BitVec.toNat_ofNat]
  omega

/-- The block check: the rest of the instruction where the block is in memory, an OutOfBounds where it is not. -/
theorem withBlock_cases (n : Nat) (s rest : State) :
    ((n = 0 ∨ s.i.toNat + n ≤ 4096) ∧ withBlock n s rest = .next rest) ∨
    ((0 < n ∧ 4096 < s.i.toNat + n) ∧ withBlock n s rest = raiseData s) := by
  by_cases h : n = 0 ∨ s.i.toNat + n ≤ 4096
  · exact .inl ⟨h, by simp [withBlock, State.blockInMemory, Config.memSize, h]⟩
  · exact .inr ⟨by omega, by simp [withBlock, State.blockInMemory, Config.memSize, h]⟩

/-! ## Timer -/

/-- A tick on the counter: down by one, floored at zero (spec/60_exceptions.md R192). -/
@[simp] theorem tickDown_toNat (d : Byte) : (tickDown d).toNat = d.toNat - 1 := by
  unfold tickDown
  split
  · simp_all
  · have : d.toNat ≠ 0 := fun h => ‹¬d = 0#8› (BitVec.eq_of_toNat_eq h)
    have := d.isLt
    simp only [BitVec.toNat_sub, BitVec.toNat_ofNat]
    omega

/-- Where the timer moves, it is running. -/
theorem State.mover_timer {s : State} (h : s.mover = .timer) : s.dt ≠ 0#8 ∧ s.agentDue = .timer := by
  unfold State.mover at h
  split at h
  · cases h
  · exact ⟨‹_›, h⟩

end Sys2Proof.Machine
end

