-- ==== Sys2Proof/Laws/PerInstr.lean ====
section
/-! SUPPORT. Laws stated per instruction. `EncodesInRow`: the word an instruction is encoded as lies in the row of the opcode
map (spec/30_encoding.md R76) that carries its mnemonic, and has no ignored bit set (R75). -/

namespace Sys2Proof.Laws.EncodesInRow

/-- The encoding is a plain word and matches the row of its mnemonic. -/
def Statement (i : Instr) : Prop :=
  plainWord (encode i) = true ∧
    ∃ row ∈ opcodeMap, row.mnemonic = mnemonic i ∧ encode i &&& row.mask = row.pattern

theorem cls : Statement (.cls) :=
  ⟨by decide, ⟨"CLS", 0xF0FF, 0x00E0⟩, by simp [opcodeMap], rfl, by decide⟩

theorem ret : Statement (.ret) :=
  ⟨by decide, ⟨"RET", 0xF0FF, 0x00EE⟩, by simp [opcodeMap], rfl, by decide⟩

theorem jp (nnn : Addr) : Statement (.jp nnn) :=
  ⟨plain_of_op (opField_encodeA _ _) (by decide) (by decide), ⟨"JP", 0xF000, 0x1000⟩, by simp [opcodeMap], rfl, encodeA_and_F000 _ _⟩

theorem call (nnn : Addr) : Statement (.call nnn) :=
  ⟨plain_of_op (opField_encodeA _ _) (by decide) (by decide), ⟨"CALL", 0xF000, 0x2000⟩, by simp [opcodeMap], rfl, encodeA_and_F000 _ _⟩

theorem se (x : Nibble) (nn : Byte) : Statement (.se x nn) :=
  ⟨plain_of_op (opField_encodeX _ _ _) (by decide) (by decide), ⟨"SE", 0xF000, 0x3000⟩, by simp [opcodeMap], rfl, encodeX_and_F000 _ _ _⟩

theorem sne (x : Nibble) (nn : Byte) : Statement (.sne x nn) :=
  ⟨plain_of_op (opField_encodeX _ _ _) (by decide) (by decide), ⟨"SNE", 0xF000, 0x4000⟩, by simp [opcodeMap], rfl, encodeX_and_F000 _ _ _⟩

theorem ld (x : Nibble) (nn : Byte) : Statement (.ld x nn) :=
  ⟨plain_of_op (opField_encodeX _ _ _) (by decide) (by decide), ⟨"LD", 0xF000, 0x6000⟩, by simp [opcodeMap], rfl, encodeX_and_F000 _ _ _⟩

theorem add (x : Nibble) (nn : Byte) : Statement (.add x nn) :=
  ⟨plain_of_op (opField_encodeX _ _ _) (by decide) (by decide), ⟨"ADD", 0xF000, 0x7000⟩, by simp [opcodeMap], rfl, encodeX_and_F000 _ _ _⟩

theorem mov (x y : Nibble) : Statement (.mov x y) :=
  ⟨plain_of_n (opField_encodeXYN _ _ _ _) (nField_encodeXYN _ _ _ _) (by decide), ⟨"MOV", 0xF00F, 0x8000⟩, by simp [opcodeMap], rfl, encodeXYN_and_F00F _ _ _ _⟩

theorem and (x y : Nibble) : Statement (.and x y) :=
  ⟨plain_of_n (opField_encodeXYN _ _ _ _) (nField_encodeXYN _ _ _ _) (by decide), ⟨"AND", 0xF00F, 0x8002⟩, by simp [opcodeMap], rfl, encodeXYN_and_F00F _ _ _ _⟩

theorem xor (x y : Nibble) : Statement (.xor x y) :=
  ⟨plain_of_n (opField_encodeXYN _ _ _ _) (nField_encodeXYN _ _ _ _) (by decide), ⟨"XOR", 0xF00F, 0x8003⟩, by simp [opcodeMap], rfl, encodeXYN_and_F00F _ _ _ _⟩

theorem addr (x y : Nibble) : Statement (.addr x y) :=
  ⟨plain_of_n (opField_encodeXYN _ _ _ _) (nField_encodeXYN _ _ _ _) (by decide), ⟨"ADDR", 0xF00F, 0x8004⟩, by simp [opcodeMap], rfl, encodeXYN_and_F00F _ _ _ _⟩

theorem sub (x y : Nibble) : Statement (.sub x y) :=
  ⟨plain_of_n (opField_encodeXYN _ _ _ _) (nField_encodeXYN _ _ _ _) (by decide), ⟨"SUB", 0xF00F, 0x8005⟩, by simp [opcodeMap], rfl, encodeXYN_and_F00F _ _ _ _⟩

theorem shr (x : Nibble) : Statement (.shr x) :=
  ⟨by revert x; decide, ⟨"SHR", 0xF00F, 0x8006⟩, by simp [opcodeMap], rfl, encodeXYN_and_F00F _ _ _ _⟩

theorem ldi (nnn : Addr) : Statement (.ldi nnn) :=
  ⟨plain_of_op (opField_encodeA _ _) (by decide) (by decide), ⟨"LDI", 0xF000, 0xA000⟩, by simp [opcodeMap], rfl, encodeA_and_F000 _ _⟩

theorem rnd (x : Nibble) (nn : Byte) : Statement (.rnd x nn) :=
  ⟨plain_of_op (opField_encodeX _ _ _) (by decide) (by decide), ⟨"RND", 0xF000, 0xC000⟩, by simp [opcodeMap], rfl, encodeX_and_F000 _ _ _⟩

theorem drw (x y n : Nibble) : Statement (.drw x y n) :=
  ⟨plain_of_op (opField_encodeXYN _ _ _ _) (by decide) (by decide), ⟨"DRW", 0xF000, 0xD000⟩, by simp [opcodeMap], rfl, encodeXYN_and_F000 _ _ _ _⟩

theorem skp (x : Nibble) : Statement (.skp x) :=
  ⟨plain_of_op (opField_encodeX _ _ _) (by decide) (by decide), ⟨"SKP", 0xF0FF, 0xE09E⟩, by simp [opcodeMap], rfl, encodeX_and_F0FF _ _ _⟩

theorem sknp (x : Nibble) : Statement (.sknp x) :=
  ⟨plain_of_op (opField_encodeX _ _ _) (by decide) (by decide), ⟨"SKNP", 0xF0FF, 0xE0A1⟩, by simp [opcodeMap], rfl, encodeX_and_F0FF _ _ _⟩

theorem getdt (x : Nibble) : Statement (.getdt x) :=
  ⟨plain_of_op (opField_encodeX _ _ _) (by decide) (by decide), ⟨"GETDT", 0xF0FF, 0xF007⟩, by simp [opcodeMap], rfl, encodeX_and_F0FF _ _ _⟩

theorem setdt (x : Nibble) : Statement (.setdt x) :=
  ⟨plain_of_op (opField_encodeX _ _ _) (by decide) (by decide), ⟨"SETDT", 0xF0FF, 0xF015⟩, by simp [opcodeMap], rfl, encodeX_and_F0FF _ _ _⟩

theorem setst (x : Nibble) : Statement (.setst x) :=
  ⟨plain_of_op (opField_encodeX _ _ _) (by decide) (by decide), ⟨"SETST", 0xF0FF, 0xF018⟩, by simp [opcodeMap], rfl, encodeX_and_F0FF _ _ _⟩

theorem addi (x : Nibble) : Statement (.addi x) :=
  ⟨plain_of_op (opField_encodeX _ _ _) (by decide) (by decide), ⟨"ADDI", 0xF0FF, 0xF01E⟩, by simp [opcodeMap], rfl, encodeX_and_F0FF _ _ _⟩

theorem font (x : Nibble) : Statement (.font x) :=
  ⟨plain_of_op (opField_encodeX _ _ _) (by decide) (by decide), ⟨"FONT", 0xF0FF, 0xF029⟩, by simp [opcodeMap], rfl, encodeX_and_F0FF _ _ _⟩

theorem bcd (x : Nibble) : Statement (.bcd x) :=
  ⟨plain_of_op (opField_encodeX _ _ _) (by decide) (by decide), ⟨"BCD", 0xF0FF, 0xF033⟩, by simp [opcodeMap], rfl, encodeX_and_F0FF _ _ _⟩

theorem dump (x : Nibble) : Statement (.dump x) :=
  ⟨plain_of_op (opField_encodeX _ _ _) (by decide) (by decide), ⟨"DUMP", 0xF0FF, 0xF055⟩, by simp [opcodeMap], rfl, encodeX_and_F0FF _ _ _⟩

theorem load (x : Nibble) : Statement (.load x) :=
  ⟨plain_of_op (opField_encodeX _ _ _) (by decide) (by decide), ⟨"LOAD", 0xF0FF, 0xF065⟩, by simp [opcodeMap], rfl, encodeX_and_F0FF _ _ _⟩

end Sys2Proof.Laws.EncodesInRow
end

