-- ==== Sys2Proof/Laws/Step.lean ====
section
/-! SUPPORT. What a step can do, said once: the four ways of the CPU's step, and a step as a move of the timer or of the CPU. -/

namespace Sys2Proof.Machine

/-- The fetch answers the word at PC exactly below 4095 (spec/60_exceptions.md R181). -/
theorem State.fetch_eq (s : State) : s.fetch = if s.pc.toNat < 4095 then some s.wordAtPc else none := by
  by_cases h : s.pc.toNat < 4095
  · have : s.pc.toNat + 1 < 4096 := by omega
    simp [State.fetch, Config.memSize, h, this]
  · have : ¬s.pc.toNat + 1 < 4096 := by omega
    simp [State.fetch, Config.memSize, h, this]

/-- R180: halted, or the fetch raises, or the dispatch raises, or the decoded instruction runs. -/
theorem cpuStep_cases (s : State) :
    (∃ e, s.err = some e ∧ cpuStep s = .next s) ∨
    (s.err = none ∧ 4095 ≤ s.pc.toNat ∧ cpuStep s = raiseFetch s) ∨
    (s.err = none ∧ s.pc.toNat < 4095 ∧ ∃ r, decodeWord s.wordAtPc = .error r ∧ cpuStep s = raiseDecode s.wordAtPc s) ∨
    (s.err = none ∧ s.pc.toNat < 4095 ∧ ∃ i, decodeWord s.wordAtPc = .ok i ∧ cpuStep s = exec i s) := by
  unfold cpuStep
  cases he : s.err with
  | some e => exact .inl ⟨e, rfl, rfl⟩
  | none =>
    refine .inr ?_
    simp only [State.fetch_eq]
    by_cases h : s.pc.toNat < 4095
    · refine .inr ?_
      simp only [if_pos h, dispatchWord]
      cases hd : decodeWord s.wordAtPc with
      | error r => exact .inl ⟨trivial, h, r, rfl, rfl⟩
      | ok i => exact .inr ⟨trivial, h, i, rfl, rfl⟩
    · exact .inl ⟨trivial, by omega, by simp [h]⟩

/-- A step is the timer's move or the CPU's, and the CPU's answers exactly what `cpuStep` answers, with the inputs used up. -/
theorem step_next {s t : State} :
    step s = .next t ↔
      (s.mover = .timer ∧ t = timerMove s) ∨
      (s.mover = .cpu ∧ ∃ u, cpuStep s = .next u ∧ t = u.endRequest.endMove) := by
  unfold step cycle
  cases hm : s.mover with
  | timer => simp [eq_comm]
  | cpu =>
    unfold cpuMove
    cases h : cpuStep s with
    | next u => simp [onNext, eq_comm]
    | fault r => cases r
    | refused r => simp [onNext]

end Sys2Proof.Machine
end

