-- ==== Sys2Proof/Tests/Slice0.lean ====
section
/-! SUPPORT. The model's own tests. Expected values come from spec/95_test_vectors.md (the vector's name stands in the comment) or
from the examples in the instruction rules; words are written out from spec/30_encoding.md R76. Then one witness per statement with
hypotheses: a concrete state and operands that meet them, at the boundary of each clause. -/

namespace Sys2Proof.Tests

open Sys2Proof.Machine Sys2Proof.Safety

/-! ## Well-formedness: one ill-formed word per check (R75), and the plain form beside it -/

/-- Bits 11:8 of a CLS word set. -/
theorem test_plain_refuses_cls_bits : plainWord 0x07E0#16 = false ∧ plainZ 0x07E0#16 = false ∧ plainWord 0x00E0#16 = true := by decide

/-- Bits 7:4 of a SHR word set; the same bits are an operand in ADDR. -/
theorem test_plain_refuses_shr_bits : plainWord 0x8126#16 = false ∧ plainShr 0x8126#16 = false ∧ plainWord 0x8124#16 = true := by decide

/-! ## Decoding: every constructor by a word written out from R76 -/

theorem test_decode_formats_z_a :
    decodeWord 0x00E0#16 = .ok .cls ∧ decodeWord 0x00EE#16 = .ok .ret ∧ decodeWord 0x1ABC#16 = .ok (.jp 0xABC#12) ∧
    decodeWord 0x2300#16 = .ok (.call 0x300#12) ∧ decodeWord 0xA123#16 = .ok (.ldi 0x123#12) := by
  refine ⟨?_, ?_, ?_, ?_, ?_⟩ <;> rfl

theorem test_decode_formats_xk_xyn :
    decodeWord 0x3A42#16 = .ok (.se 0xA#4 0x42#8) ∧ decodeWord 0x4A42#16 = .ok (.sne 0xA#4 0x42#8) ∧
    decodeWord 0x63FF#16 = .ok (.ld 0x3#4 0xFF#8) ∧ decodeWord 0x7302#16 = .ok (.add 0x3#4 0x02#8) ∧
    decodeWord 0xC30F#16 = .ok (.rnd 0x3#4 0x0F#8) ∧ decodeWord 0xD125#16 = .ok (.drw 0x1#4 0x2#4 0x5#4) := by
  refine ⟨?_, ?_, ?_, ?_, ?_, ?_⟩ <;> rfl

theorem test_decode_format_xy :
    decodeWord 0x8120#16 = .ok (.mov 0x1#4 0x2#4) ∧ decodeWord 0x8122#16 = .ok (.and 0x1#4 0x2#4) ∧
    decodeWord 0x8123#16 = .ok (.xor 0x1#4 0x2#4) ∧ decodeWord 0x8124#16 = .ok (.addr 0x1#4 0x2#4) ∧
    decodeWord 0x8125#16 = .ok (.sub 0x1#4 0x2#4) ∧ decodeWord 0x8126#16 = .ok (.shr 0x1#4) := by
  refine ⟨?_, ?_, ?_, ?_, ?_, ?_⟩ <;> rfl

theorem test_decode_format_x :
    decodeWord 0xE29E#16 = .ok (.skp 0x2#4) ∧ decodeWord 0xE2A1#16 = .ok (.sknp 0x2#4) ∧
    decodeWord 0xF307#16 = .ok (.getdt 0x3#4) ∧ decodeWord 0xF315#16 = .ok (.setdt 0x3#4) ∧
    decodeWord 0xF318#16 = .ok (.setst 0x3#4) ∧ decodeWord 0xF21E#16 = .ok (.addi 0x2#4) ∧
    decodeWord 0xF229#16 = .ok (.font 0x2#4) ∧ decodeWord 0xF133#16 = .ok (.bcd 0x1#4) ∧
    decodeWord 0xF255#16 = .ok (.dump 0x2#4) ∧ decodeWord 0xF265#16 = .ok (.load 0x2#4) := by
  refine ⟨?_, ?_, ?_, ?_, ?_, ?_, ?_, ?_, ?_, ?_⟩ <;> rfl

/-- V-X1 to V-X12 in part: rejected by name. -/
theorem test_decode_rejects :
    decodeWord 0x5120#16 = .error (.family 0x5#4) ∧ decodeWord 0xB300#16 = .error (.family 0xB#4) ∧
    decodeWord 0x0123#16 = .error (.lowByte 0x0#4 0x23#8) ∧ decodeWord 0x812E#16 = .error (.lowNibble 0x8#4 0xE#4) ∧
    decodeWord 0xF30A#16 = .error (.lowByte 0xF#4 0x0A#8) ∧ decode [0xA1#8] = .error .short := by
  refine ⟨?_, ?_, ?_, ?_, ?_, ?_⟩ <;> rfl

/-- Big-endian bytes, and the rest of the list handed back. -/
theorem test_decode_bytes : decode [0xA1#8, 0x23#8, 0x77#8] = .ok (.ldi 0x123#12, [0x77#8]) := by rfl

theorem test_table_word : decodeTableWord 16 0xD125 = some (.drw 0x1#4 0x2#4 0x5#4) ∧ decodeTableWord 16 0x9120 = none := by decide

/-! ## One step on a small state -/

/-- Reset with a script: the CPU due twice, no key for two steps, one random byte. -/
def quiet : State := { State.reset with env := { Env.free with agents := [.cpu, .cpu], keys := [none, none], rng := [0xA7#8] } }

/-- The script's first key. -/
def withKey (k : Option Nibble) (s : State) : State := { s with env := { s.env with keys := [k] } }

/-- The state after one step on the word placed at PC. -/
def ran (s : State) (w : Nat) : State :=
  match step (s.withFetchWord 16 w) with
  | .next t => t
  | .fault r => nomatch r
  | .refused _ => s

/-- What ERR says, without the fields that are not to be compared. -/
def errOf (s : State) : Option (ErrKind × Word) := s.err.map fun e => (e.kind, e.pc)

/-- V-D11. -/
theorem test_cls : let t := ran ((quiet.setPlane (quiet.plane.flip 5 5)).setReg vf 1) 0x00E0
    t.plane.cell 5 5 = false ∧ t.reg vf = 1#8 ∧ t.pc = 0x202#16 := by decide

/-- V-F8: the ignored bits set, the top entry popped. -/
theorem test_ret : let t := ran ((quiet.push 0x456).push 0x789) 0x0AEE
    t.pc = 0x789#16 ∧ t.stack = [0x456#16] := by decide

/-- V-F9. -/
theorem test_ret_underflow : let t := ran quiet 0x00EE
    errOf t = some (.stackUnderflow, 0x200#16) ∧ t.err.map (·.word) = some 0x00EE#16 ∧ t.pc = 0x200#16 ∧ t.stack = [] := by decide

/-- V-F1. -/
theorem test_jp : (ran quiet 0x1ABC).pc = 0xABC#16 := by decide

/-- V-F4. -/
theorem test_call : let t := ran quiet 0x2300
    t.stack = [0x202#16] ∧ t.pc = 0x300#16 := by decide

/-- V-F6. -/
theorem test_call_overflow : let t := ran { quiet with stack := List.replicate 16 0x202#16 } 0x2300
    errOf t = some (.stackOverflow, 0x200#16) ∧ t.stack.length = 16 ∧ t.pc = 0x200#16 := by decide

/-- V-F10, V-F11. -/
theorem test_se : (ran (quiet.setReg 0xA 0x42) 0x3A42).pc = 0x204#16 ∧ (ran (quiet.setReg 0xA 0x43) 0x3A42).pc = 0x202#16 := by decide

/-- V-F12, V-F13. -/
theorem test_sne : (ran (quiet.setReg 0xA 0x42) 0x4A42).pc = 0x202#16 ∧ (ran (quiet.setReg 0xA 0x43) 0x4A42).pc = 0x204#16 := by decide

/-- V-A1. -/
theorem test_ld : (ran quiet 0x63FF).reg 0x3 = 0xFF#8 := by decide

/-- V-A3: wraps, no flag. -/
theorem test_add_wraps : let t := ran ((quiet.setReg 0x3 0xFF).setReg vf 5) 0x7302
    t.reg 0x3 = 0x01#8 ∧ t.reg vf = 5#8 := by decide

/-- V-A5. -/
theorem test_mov : (ran (quiet.setReg 0x2 7) 0x8120).reg 0x1 = 7#8 := by decide

/-- V-A6. -/
theorem test_and : let t := ran (((quiet.setReg 0x1 0xCC).setReg 0x2 0xAA).setReg vf 9) 0x8122
    t.reg 0x1 = 0x88#8 ∧ t.reg vf = 9#8 := by decide

/-- V-A7. -/
theorem test_xor : let t := ran (((quiet.setReg 0x1 0xCC).setReg 0x2 0xAA).setReg vf 9) 0x8123
    t.reg 0x1 = 0x66#8 ∧ t.reg vf = 9#8 := by decide

/-- V-A16: the old VF is the second operand. -/
theorem test_addr_reads_old_vf : let t := ran ((quiet.setReg 0x1 0x05).setReg vf 0xFE) 0x81F4
    t.reg 0x1 = 0x03#8 ∧ t.reg vf = 1#8 := by decide

/-- V-A15: the flag wins over the sum. -/
theorem test_addr_flag_wins : (ran ((quiet.setReg vf 0x10).setReg 0x1 0x20) 0x8F14).reg vf = 0#8 := by decide

/-- V-A20. -/
theorem test_sub_borrow : let t := ran ((quiet.setReg 0x1 0x01).setReg 0x2 0x10) 0x8125
    t.reg 0x1 = 0xF1#8 ∧ t.reg vf = 0#8 := by decide

/-- V-A21: equality is no borrow. -/
theorem test_sub_equal : let t := ran ((quiet.setReg 0x1 0x42).setReg 0x2 0x42) 0x8125
    t.reg 0x1 = 0x00#8 ∧ t.reg vf = 1#8 := by decide

/-- V-A28 with the y field of V-A31: logical, in place. -/
theorem test_shr : let t := ran ((quiet.setReg 0x1 0x80).setReg 0x2 0xFF) 0x8126
    t.reg 0x1 = 0x40#8 ∧ t.reg vf = 0#8 := by decide

/-- V-A33: the flag wins. -/
theorem test_shr_flag_wins : (ran (quiet.setReg vf 2) 0x8F06).reg vf = 0#8 := by decide

/-- V-A34: one byte drawn. -/
theorem test_rnd : let t := ran quiet 0xC30F
    t.reg 0x3 = 0x07#8 ∧ t.env.rng = [] ∧ t.env.draws = 1 := by decide

/-- V-M1. -/
theorem test_ldi : (ran quiet 0xA123).i = 0x0123#16 := by decide

/-- V-M4 and V-M5: not truncated to 12 bits, wraps at 16. -/
theorem test_addi : (ran ((quiet.setI 0x0FFF).setReg 0x2 1) 0xF21E).i = 0x1000#16 ∧
    (ran ((quiet.setI 0xFFFF).setReg 0x2 2) 0xF21E).i = 0x0001#16 := by decide

/-- V-M7, V-M10: no masking. -/
theorem test_font : (ran (quiet.setReg 0x2 0x0A) 0xF229).i = 0x0032#16 ∧ (ran (quiet.setReg 0x2 0xFF) 0xF229).i = 0x04FB#16 := by decide

/-- V-M12. -/
theorem test_bcd : let t := ran ((quiet.setReg 0x2 0x9C).setI 0x300) 0xF233
    t.bytesAt 0x300 3 = [1#8, 5#8, 6#8] ∧ t.i = 0x300#16 := by decide

/-- V-M17: no byte written, the lowest bad address reported. -/
theorem test_bcd_out_of_bounds : let t := ran ((quiet.setReg 0x2 0x64).setI 0xFFE) 0xF233
    errOf t = some (.outOfBounds, 0x200#16) ∧ t.err.map (·.badaddr) = some 0x1000#17 ∧ t.bytesAt 0xFFE 2 = [0#8, 0#8] := by decide

/-- V-M25: a DUMP over itself. -/
theorem test_dump_over_itself :
    let t := ran ((((quiet.setReg 0x0 0x12).setReg 0x1 0x00).setReg 0x2 0x60).setI 0x200) 0xF255
    t.bytesAt 0x200 3 = [0x12#8, 0x00#8, 0x60#8] ∧ t.i = 0x0203#16 ∧ t.wordAtPc = 0x6000#16 ∧ (t.jump 0x200).wordAtPc = 0x1200#16 := by decide

/-- V-M23. -/
theorem test_dump_out_of_bounds : let t := ran (quiet.setI 0xFF9) 0xF755
    errOf t = some (.outOfBounds, 0x200#16) ∧ t.i = 0xFF9#16 := by decide

/-- V-M26: V4 is not loaded. -/
theorem test_load : let t := ran (((quiet.storeBytes 0x400 [0xDE, 0xAD, 0xBE, 0xEF]).setReg 0x4 0x99).setI 0x400) 0xF365
    t.regsUpTo 5 = [0xDE#8, 0xAD#8, 0xBE#8, 0xEF#8, 0x99#8] ∧ t.i = 0x0404#16 := by decide

/-- V-M27: the default font, all sixteen registers. -/
theorem test_load_font : (ran quiet 0xFF65).regsUpTo 16 =
    [0xF0#8, 0x90#8, 0x90#8, 0x90#8, 0xF0#8, 0x20#8, 0x60#8, 0x20#8, 0x20#8, 0x70#8, 0xF0#8, 0x10#8, 0xF0#8, 0x80#8, 0xF0#8, 0xF0#8] := by decide

/-- V-D10: both coordinates 255 wrap. -/
theorem test_drw_wraps :
    let t := ran ((((quiet.storeBytes 0x204 [0xFF, 0x81]).setI 0x204).setReg 0x1 255).setReg 0x2 255) 0xD122
    t.plane.cell 31 63 = true ∧ t.plane.cell 31 6 = true ∧ t.plane.cell 31 7 = false ∧ t.plane.cell 0 63 = true ∧
      t.plane.cell 0 0 = false ∧ t.plane.cell 0 6 = true ∧ t.reg vf = 0#8 := by decide

/-- V-D5: a collision. -/
theorem test_drw_collision :
    let t := ran (quiet.setPlane ((quiet.plane.flip 0 1).flip 0 5)) 0xD001
    t.plane.cell 0 0 = true ∧ t.plane.cell 0 1 = false ∧ t.plane.cell 0 3 = true ∧ t.plane.cell 0 5 = true ∧ t.reg vf = 1#8 := by decide

/-- The instance with other parameters (R5). -/
def tuned (policy : Config.DrawPolicy) (depth : Option Config.Depth) : State :=
  { quiet with params := { Config.params with drawPolicy := policy, stackDepth := depth } }

/-- D4: the same DRW at column 60, row 30 on a CLIP and on a WRAP instance; digit 0 of the font. -/
theorem test_drw_by_policy :
    let at' := fun p => ran (((tuned p none).setReg 0x1 60).setReg 0x2 30) 0xD125
    (at' .clip).plane.cell 30 63 = true ∧ (at' .clip).plane.cell 0 60 = false ∧ (at' .wrap).plane.cell 0 60 = true := by decide

/-- D5: the 17th nested CALL on an unbounded stack, and the second one on a stack of one entry. -/
theorem test_call_by_depth :
    (ran { tuned .wrap none with stack := List.replicate 16 0x202#16 } 0x2300).stack.length = 17 ∧
    errOf (ran { tuned .wrap (some ⟨1, by decide⟩) with stack := [0x202#16] } 0x2300) = some (.stackOverflow, 0x200#16) := by decide

/-- D14: the font of another instance stands in its memory after reset, and is read by LOAD. -/
theorem test_load_other_font :
    let s := State.resetOf { Config.params with font := Vector.replicate 80 0x3C#8 }
    s.bytesAt 79 2 = [0x3C#8, 0#8] ∧ (ran s 0xF165).regsUpTo 3 = [0x3C#8, 0x3C#8, 0#8] := by decide

/-- V-D4 under CLIP: rows and columns past the edge are skipped. -/
theorem test_draw_clip : let p := quiet.plane.draw .clip 60 30 (quiet.bytesAt 0 5)
    p.cell 30 63 = true ∧ p.cell 31 60 = true ∧ p.cell 0 60 = false ∧ p.coll = false := by decide

/-- V-K1, V-K4. -/
theorem test_skp : (ran (withKey (some 5) (quiet.setReg 0x2 5)) 0xE29E).pc = 0x204#16 ∧
    (ran (withKey (some 5) (quiet.setReg 0x2 0x15)) 0xE29E).pc = 0x202#16 := by decide

/-- V-K7, V-K9. -/
theorem test_sknp : (ran (withKey (some 5) (quiet.setReg 0x2 5)) 0xE2A1).pc = 0x202#16 ∧
    (ran (withKey none (quiet.setReg 0x2 5)) 0xE2A1).pc = 0x204#16 := by decide

/-- V-T2. -/
theorem test_getdt : let t := ran (quiet.setDt 9) 0xFF07
    t.reg vf = 9#8 ∧ t.dt = 9#8 := by decide

/-- V-T3: three ticks, then twenty in all. -/
theorem test_setdt : let t := ran (quiet.setReg 0x3 0x10) 0xF315
    t.dt = 0x10#8 ∧ (State.tick^[3] t).dt = 0x0D#8 ∧ (State.tick^[20] t).dt = 0x00#8 := by decide

/-- V-T5. -/
theorem test_setst : let t := ran ((quiet.setReg 0x3 0x44).setDt 0x20) 0xF318
    t.pc = 0x202#16 ∧ t.dt = 0x20#8 ∧ t.reg 0x3 = 0x44#8 := by decide

/-- V-X13: the fetch fails. -/
theorem test_fetch_fault : let t := ran (quiet.jump 0xFFF) 0x0000
    errOf t = some (.outOfBounds, 0xFFF#16) ∧ t.err.map (·.badaddr) = some 0x1000#17 ∧ t.pc = 0xFFF#16 := by decide

/-- V-X4. -/
theorem test_decode_fault : let t := ran quiet 0x0000
    errOf t = some (.decodeError, 0x200#16) ∧ t.err.map (·.word) = some 0x0000#16 := by decide

/-- An error record a halted machine holds. -/
def halted : State := { quiet with err := some { kind := .decodeError, pc := 0x200, word := 0x0000, badaddr := 0 } }

/-- V-X17: a halted machine does not step. -/
theorem test_halted : let t := ran halted 0x63FF
    t.pc = 0x200#16 ∧ t.reg 0x3 = 0#8 ∧ t.err = halted.err := by decide

/-- R192, R194: a tick may follow the SETDT at once, and changes DT alone. -/
theorem test_tick_after_setdt :
    let s := ran { quiet.setReg 0x3 0x10 with env := { quiet.env with agents := [.cpu, .timer] } } 0xF315
    let t := timerMove s
    s.mover = .timer ∧ s.dt = 0x10#8 ∧ t.dt = 0x0F#8 ∧ t.pc = 0x202#16 ∧ t.env.keys = s.env.keys := by decide

/-- R192: with DT at 0 a tick would change nothing, and the CPU moves. -/
theorem test_no_tick_at_zero :
    (ran { quiet with env := { quiet.env with agents := [.timer] } } 0x63FF).reg 0x3 = 0xFF#8 := by decide

/-! ## Witnesses: the hypotheses of each statement can be met -/

/-- The answer is a next state. -/
def isNext : Result → Bool
  | .next _ => true
  | _ => false

theorem next_of_isNext {r : Result} (h : isNext r = true) : ∃ t, r = .next t := by
  cases r with
  | next t => exact ⟨t, rfl⟩
  | fault r => cases r
  | refused r => simp [isNext] at h

theorem witness_EncodeOfDecode : decodeWord 0x8106#16 = .ok (.shr 0x1#4) ∧ decodeWord 0x8126#16 = .ok (.shr 0x1#4) := ⟨rfl, rfl⟩

theorem witness_DecoderFollowsOpcodeMap :
    (∃ i, decodeWord 0x07E0#16 = .ok i) ∧ ∃ row ∈ opcodeMap, 0xFF65#16 &&& row.mask = row.pattern :=
  ⟨⟨.cls, rfl⟩, ⟨"LOAD", 0xF0FF, 0xF065⟩, by decide, by decide⟩

theorem witness_BootState : (List.replicate 3584 0#8).length ≤ 3584 ∧ 3584 < (List.replicate 3585 0#8).length ∧
    0 < (List.replicate 3584 0#8).length := by
  simp only [List.length_replicate]; omega

theorem witness_InvariantsAfterBoot_EveryRunKeepsInvariants : ∃ s, boot [0x12#8, 0x00#8] Config.params = some s := ⟨_, rfl⟩

theorem witness_ParametersFixed : (∃ s, boot [0x12#8, 0x00#8] { Config.params with drawPolicy := .clip, stackDepth := none } = some s) ∧
    ∃ t, step quiet = .next t := ⟨⟨_, rfl⟩, next_of_isNext (by decide)⟩

/-- The last word a fetch can read. -/
theorem witness_StepRunsDecoded : let s := (quiet.jump 0xFFE).withFetchWord 16 0x6A55
    s.err = none ∧ s.pc.toNat + 1 ≤ 4095 ∧ (decodeWord s.wordAtPc).toOption = some (.ld 0xA#4 0x55#8) ∧ s.mover = .cpu := by decide

/-- A running timer, and the timer due. -/
theorem witness_StepRunsDecoded_timer : ({ quiet with dt := 1#8, env := { quiet.env with agents := [.timer] } } : State).mover = .timer := by decide

theorem witness_FetchBigEndian : (quiet.jump 0xFFE).pc.toNat + 1 ≤ 4095 ∧ (quiet.jump 0x201).pc.toNat + 1 ≤ 4095 := by decide

theorem witness_FetchFault : (quiet.jump 0xFFF).err = none ∧ 4095 ≤ (quiet.jump 0xFFF).pc.toNat ∧
    4096 ≤ (quiet.jump 0x1000).pc.toNat := by decide

theorem witness_DecodeFault : quiet.err = none ∧ quiet.pc.toNat + 1 ≤ 4095 ∧
    ∃ r, decodeWord quiet.wordAtPc = .error r := ⟨rfl, by decide, .lowByte 0x0#4 0x00#8, rfl⟩

theorem witness_HaltedDoesNothing : ∃ e, halted.err = some e := ⟨_, rfl⟩

theorem witness_RaiseChangesOnlyErr : ∃ t, quiet.err = none ∧ cpuStep quiet = .next t ∧ t.err ≠ none :=
  ⟨_, rfl, rfl, by decide⟩

/-- Every cause of the table, and none. -/
theorem witness_ExceptionCauses :
    let at' := fun (s : State) (w : Nat) => stepCause (s.withFetchWord 16 w)
    quiet.err = none ∧ stackFits quiet.params.stackDepth quiet.stack = true ∧ at' quiet 0x00E0 = none ∧ at' quiet 0x5120 = some .decodeError ∧
    stepCause (quiet.jump 0xFFF) = some .outOfBounds ∧ at' quiet 0x00EE = some .stackUnderflow ∧
    at' { quiet with stack := List.replicate 16 0x202#16 } 0x2300 = some .stackOverflow ∧
    at' (quiet.setI 0xFFE) 0xF133 = some .outOfBounds ∧ at' (quiet.setI 0xFFD) 0xF133 = none ∧
    at' (quiet.setI 0xFFF) 0xF155 = some .outOfBounds ∧ at' (quiet.setI 0xFFF) 0xF055 = none ∧
    at' (quiet.setI 0xFF1) 0xFF65 = some .outOfBounds ∧ at' (quiet.setI 0xFF0) 0xFF65 = none ∧
    at' (quiet.setI 0xFF2) 0xD01F = some .outOfBounds ∧ at' (quiet.setI 0xFFFF) 0xD010 = none := by decide

theorem witness_StepAlwaysAnswers : halted.err ≠ none := by decide

theorem witness_StepKeepsInvariant : Inv quiet ∧ ∃ t, step quiet = .next t := ⟨by decide, next_of_isNext (by decide)⟩

theorem witness_StepKeepsErrExplained : Inv halted ∧ ErrExplained halted ∧ (∃ t, step halted = .next t) ∧ ErrExplained quiet :=
  ⟨by decide, by decide, next_of_isNext (by decide), by decide⟩

/-- A record in the wrong place is not explained: no OutOfBounds where PC and I are in memory, no StackOverflow but at a CALL. -/
theorem test_err_not_explained :
    ¬errFits quiet { kind := .outOfBounds, pc := 0x200, word := 0x0000, badaddr := 4096 } ∧
    ¬errFits { quiet with stack := List.replicate 16 0x202#16 } { kind := .stackOverflow, pc := 0x200, word := 0x0000, badaddr := 0 } := by
  decide

/-- The same inputs now, others later. -/
theorem witness_StepDependsOnlyOnCoreAndInputs :
    let t := { quiet with env := { quiet.env with agents := [.cpu, .timer], keys := [none, some 3], draws := 9 } }
    sameCore quiet t ∧ sameInputs quiet t ∧ ∃ u, step quiet = .next u := ⟨rfl, ⟨rfl, rfl, rfl, rfl⟩, next_of_isNext (by decide)⟩

theorem witness_OtherInstructionsReadNoInput :
    (∀ x, Instr.rnd 0x3 0x0F ≠ .skp x ∧ Instr.rnd 0x3 0x0F ≠ .sknp x) ∧ (∃ t, exec (.rnd 0x3 0x0F) quiet = .next t) ∧
    (∀ x nn, Instr.skp 0x2 ≠ .rnd x nn) ∧ ∃ t, exec (.skp 0x2) quiet = .next t := ⟨fun _ => ⟨nofun, nofun⟩, ⟨_, rfl⟩, nofun, _, rfl⟩

/-- JP meets the premise of every clause. -/
theorem witness_WritersOfEachPart : (∃ t, exec (.jp 0x300) quiet = .next t) ∧
    (∀ x, Instr.jp 0x300 ≠ .bcd x ∧ Instr.jp 0x300 ≠ .dump x) ∧ Instr.jp 0x300 ≠ .cls ∧ (∀ x y n, Instr.jp 0x300 ≠ .drw x y n) ∧
    Instr.jp 0x300 ≠ .ret ∧ (∀ nnn, Instr.jp 0x300 ≠ .call nnn) ∧ (∀ x, Instr.jp 0x300 ≠ .setdt x) ∧
    (∀ x nn, Instr.jp 0x300 ≠ .rnd x nn) ∧ (∀ x, Instr.jp 0x300 ≠ .load x) :=
  ⟨⟨_, rfl⟩, fun _ => ⟨nofun, nofun⟩, nofun, nofun, nofun, nofun, nofun, nofun, nofun⟩

theorem witness_OnlyFlagWritersClobberVf :
    (∃ t, exec (.ld vf 7) quiet = .next t ∧ t.reg vf ≠ quiet.reg vf) ∧
    ∃ t, exec (.sub 0x1 0x1) quiet = .next t ∧ t.reg vf ≠ quiet.reg vf := ⟨⟨_, rfl, by decide⟩, _, rfl, by decide⟩

theorem witness_OtherInstructionsTouchNoMemory_OnlyDrawSeesDisplay :
    (∃ t, exec (.call 0x300) quiet = .next t) ∧ execCause (.call 0x300) quiet = none ∧
    stackFits quiet.params.stackDepth quiet.stack = true ∧
    (∀ x, Instr.call 0x300 ≠ .bcd x ∧ Instr.call 0x300 ≠ .dump x ∧ Instr.call 0x300 ≠ .load x) ∧
    (∀ x y n, Instr.call 0x300 ≠ .drw x y n) ∧ Instr.call 0x300 ≠ .cls :=
  ⟨⟨_, rfl⟩, by decide, by decide, fun _ => ⟨nofun, nofun, nofun⟩, nofun, nofun⟩

theorem witness_EvenPcKept :
    (∀ nnn, Instr.call 0x300 = .jp nnn ∨ Instr.call 0x300 = .call nnn → nnn.toNat % 2 = 0) ∧
    (∃ t, exec (.call 0x300) (quiet.push 0x202) = .next t) ∧ (quiet.push 0x202).pc.toNat % 2 = 0 ∧
    ∀ a ∈ (quiet.push 0x202).stack, a.toNat % 2 = 0 := by
  refine ⟨?_, next_of_isNext (by decide), by decide, ?_⟩
  · rintro nnn (h | h)
    · cases h
    · injection h with h; subst h; decide
  · rw [show (quiet.push 0x202).stack = [0x202#16] from rfl]; simp

/-- The timer moves over a SETDT; the CPU moves over another word. -/
theorem witness_TimerNeverRises :
    (let s := { quiet.withFetchWord 16 0xF315 with dt := 5#8, env := { quiet.env with agents := [.timer] } }
     (∃ t, step s = .next t) ∧ s.mover = .timer) ∧
    (∃ t, step quiet = .next t) ∧ quiet.mover = .cpu ∧ ∀ x, ¬executes quiet (.setdt x) :=
  ⟨⟨next_of_isNext (by decide), by decide⟩, next_of_isNext (by decide), by decide, fun _ h => nomatch h.2.2⟩

theorem witness_RetResult : (quiet.push 0x202).stack = [] ++ [0x202#16] ∧ quiet.stack = [] := ⟨rfl, rfl⟩

/-- One entry below the depth, at it, and an unbounded stack. -/
theorem witness_CallResult :
    stackHasRoom { quiet with stack := List.replicate 15 0x202#16 } ∧ stackHasRoom (tuned .wrap none) ∧
    stackAtDepth { quiet with stack := List.replicate 16 0x202#16 } :=
  ⟨fun d h => by cases h; decide, nofun, by decide⟩

/-- A CALL to 0x300, where a RET stands. -/
theorem witness_CallThenRet : let s := quiet.storeBytes 0x300 [0x00, 0xEE]
    stackHasRoom s ∧ s.err = none ∧ (0x300#12).toNat + 1 ≤ 4095 ∧
    ∃ t, exec (.call 0x300) s = .next t ∧ decodeWord t.wordAtPc = .ok .ret := ⟨fun d h => by cases h; decide, rfl, by decide, _, rfl, rfl⟩

theorem witness_SeResult_SneResult : (quiet.setReg 0xA 0x42).reg 0xA = 0x42#8 ∧ (quiet.setReg 0xA 0x43).reg 0xA ≠ 0x42#8 := by decide

theorem witness_AddrResult_SubResult_ShrResult : (0x1#4 : Nibble) ≠ vf := by decide

theorem witness_RndResult : quiet.env.rng = 0xA7#8 :: [] := rfl

/-- The highest legal address and the lowest illegal one. -/
theorem witness_BcdResult : Memory.wf quiet.params.font quiet.mem = true ∧ (quiet.setI 0xFFD).i.toNat + 2 ≤ 4095 ∧
    4095 < (quiet.setI 0xFFE).i.toNat + 2 := by decide

theorem witness_DumpResult_LoadResult_DumpThenLoad : Memory.wf quiet.params.font quiet.mem = true ∧
    (quiet.setI 0xFF0).i.toNat + (0xF#4 : Nibble).toNat ≤ 4095 ∧ 4095 < (quiet.setI 0xFF1).i.toNat + (0xF#4 : Nibble).toNat ∧
    (0x0#4 : Nibble).toNat ≤ (0xF#4 : Nibble).toNat := by decide

theorem witness_FetchSeesStore : Memory.wf quiet.params.font quiet.mem = true ∧ 1 ≤ (0x1#4 : Nibble).toNat ∧
    (quiet.setI 0xFFE).i.toNat + (0x1#4 : Nibble).toNat ≤ 4095 := by decide

theorem witness_PixelPlacement : ((63 : Nat) ≤ 63 ∧ (31 : Nat) ≤ 31) ∧ ¬((64 : Nat) ≤ 63 ∧ (0 : Nat) ≤ 31) ∧
    ¬((0 : Nat) ≤ 63 ∧ (32 : Nat) ≤ 31) := by omega

theorem witness_DrawXorsSprite : (List.replicate 15 0xFF#8).length ≤ 15 := by decide

theorem witness_DrwResult : (0xF#4 = 0#4 ∨ (quiet.setI 0xFF1).i.toNat + (0xF#4 : Nibble).toNat - 1 ≤ 4095) ∧
    (0x0#4 = 0#4 ∨ (quiet.setI 0xFFFF).i.toNat + (0x0#4 : Nibble).toNat - 1 ≤ 4095) ∧
    0 < (0xF#4 : Nibble).toNat ∧ 4095 < (quiet.setI 0xFF2).i.toNat + (0xF#4 : Nibble).toNat - 1 := by decide

theorem witness_DrawTwiceRestores : (0x1#4 : Nibble) ≠ vf ∧ (0x2#4 : Nibble) ≠ vf ∧
    (0x5#4 = 0#4 ∨ quiet.i.toNat + (0x5#4 : Nibble).toNat - 1 ≤ 4095) := by decide

theorem witness_KeySkips : keyHeld 0x2 (withKey (some 5) (quiet.setReg 0x2 5)) ∧ ¬keyHeld 0x2 (withKey none (quiet.setReg 0x2 0)) ∧
    ¬keyHeld 0x2 (withKey (some 5) (quiet.setReg 0x2 0x15)) := by
  refine ⟨⟨5, rfl, rfl⟩, ?_, ?_⟩
  · rintro ⟨k, h, _⟩; cases h
  · rintro ⟨k, h, hk⟩; injection h with h; subst h; revert hk; decide

theorem witness_KeySkips_script : (withKey (some 5) quiet).env.keys = some 5 :: [] ∧ (withKey none quiet).env.keys = none :: [] ∧
    (∃ t, step quiet = .next t) ∧ quiet.mover = .cpu := ⟨rfl, rfl, next_of_isNext (by decide), by decide⟩

/-- A jump to itself. -/
theorem witness_EndedIsFixedPoint : ended (quiet.withFetchWord 16 0x1200) = true := by decide

/-- A run from reset under free inputs: the first step on a placed SKP runs it, and it does not stop. -/
theorem test_first_step_from_reset :
    (match step (State.reset.withFetchWord 16 0xF229) with | .next t => t.pc | _ => 0) = 0x202#16 := by decide

end Sys2Proof.Tests
end

/-! Reset and the loader (spec/70_reset_and_hazards.md R211, R213): the state the first step begins in. -/

namespace Sys2Proof.Machine

/-! ## The reset content of memory (spec/10_state.md R36) -/

/-- FONT stands at FONT_BASE. -/
theorem Memory.initial_of_lt (font : Config.Font) {a : Nat} (h : a < 80) : Memory.initial font a = font[a] := by
  simp [Memory.initial, Config.fontBase, h]

/-- Past the font memory is zero. -/
theorem Memory.initial_of_ge (font : Config.Font) {a : Nat} (h : 80 ≤ a) : Memory.initial font a = 0#8 := by
  simp [Memory.initial, Config.fontBase, h]

/-! ## The state after reset, whatever the parameters -/

@[simp] theorem Plane.blank_cell (y : Fin 32) (x : Fin 64) : Plane.blank.cell y x = false := by
  simp [Plane.cell, Plane.blank]

@[simp] theorem State.resetOf_reg (p : Config.Params) (x : Nibble) : (State.resetOf p).reg x = 0#8 := by
  simp [State.reg, State.resetOf, State.reset]

/-! ## Booting an image -/

/-- A machine exists exactly where the image fits its 3584 bytes (spec/20_memory.md R57), and it is reset and load. -/
theorem boot_eq_some {image : List Byte} {p : Config.Params} {s : State} :
    boot image p = some s ↔ image.length ≤ 3584 ∧ s = (State.resetOf p).load image := by
  have hfit : Config.loadAddr + image.length ≤ Config.memSize ↔ image.length ≤ 3584 := by
    simp only [Config.loadAddr, Config.memSize]; omega
  simp [boot, hfit, eq_comm]

theorem boot_eq_none {image : List Byte} {p : Config.Params} (h : 3584 < image.length) : boot image p = none := by
  rw [Option.eq_none_iff_forall_ne_some]
  intro s hs
  have := (boot_eq_some.mp hs).1
  omega

/-- A byte of booted memory is the image's at LOAD_ADDR upward, and elsewhere the reset content. -/
theorem State.byteAt_load_resetOf (p : Config.Params) {image : List Byte} (h : image.length ≤ 3584) (a : Nat) :
    ((State.resetOf p).load image).byteAt a =
      if 0x200 ≤ a ∧ a < 0x200 + image.length then image.getD (a - 0x200) 0#8 else Memory.initial p.font a :=
  Memory.read_writeBytes Memory.wf_reset image 0x200 (by simp only [Config.memSize]; omega) a

end Sys2Proof.Machine

namespace Sys2Proof.Proofs

open Sys2Proof.Machine

/-- Settles O7: booted memory is the image over the reset content, and each of the four byte ranges falls on one side of that. -/
theorem bootState : Obligations.BootState := by
  refine ⟨fun image p h => boot_eq_none h, fun image p h => ⟨_, boot_eq_some.mpr ⟨h, rfl⟩, rfl, rfl, ?_, ?_, ?_, ?_,
    State.resetOf_reg p, rfl, rfl, rfl, Plane.blank_cell, rfl, rfl⟩⟩
  · intro a ha
    rw [State.byteAt_load_resetOf p h, if_neg (by omega), Memory.initial_of_lt p.font ha]
  · intro j hj
    rw [State.byteAt_load_resetOf p h, if_pos (by omega), Nat.add_sub_cancel_left]
  · intro a hfont ha
    rw [State.byteAt_load_resetOf p h, if_neg (by omega), Memory.initial_of_ge p.font hfont]
  · intro a ha _
    rw [State.byteAt_load_resetOf p h, if_neg (by omega), Memory.initial_of_ge p.font (by omega)]

end Sys2Proof.Proofs

/-! No step changes the parameters (spec/00_scope.md R5, log 21). -/

namespace Sys2Proof.Machine

/-! ## What the operations that may raise answer -/

/-- A block instruction answers its result, or the state with an error record. -/
theorem withBlock_next {n : Nat} {s rest t : State} (h : withBlock n s rest = .next t) :
    t = rest ∨ ∃ e, t = { s with err := some e } := by
  rcases withBlock_cases n s rest with ⟨_, hw⟩ | ⟨_, hw⟩
  · exact .inl (Host.Outcome.next.inj (hw.symm.trans h)).symm
  · exact .inr ⟨_, raise_next (hw.symm.trans h)⟩

/-- R91: RET pops the top entry into PC, or answers the state with an error record. -/
theorem execRet_next {s t : State} (h : execRet s = .next t) :
    (∃ st a, s.stack = st ++ [a] ∧ t = { s with stack := st, pc := a }) ∨ ∃ e, t = { s with err := some e } := by
  rcases s.pop_cases with ⟨_, hp⟩ | ⟨st, a, hst, hp⟩
  · simp only [execRet, hp] at h
    exact .inr ⟨_, raise_next h⟩
  · simp only [execRet, hp] at h
    exact .inl ⟨st, a, hst, (Host.Outcome.next.inj h).symm⟩

/-- R93: CALL pushes and jumps where the stack is not full, or answers the state with an error record. -/
theorem execCall_next {nnn : Addr} {s t : State} (h : execCall nnn s = .next t) :
    (stackFull s.params.stackDepth s.stack = false ∧ t = (s.push (s.pc + 2#16)).jump (target nnn)) ∨
    ∃ e, t = { s with err := some e } := by
  unfold execCall at h
  split at h
  · exact .inr ⟨_, raise_next h⟩
  · next hroom => exact .inl ⟨by simpa using hroom, (Host.Outcome.next.inj h).symm⟩

/-! ## The parameters are kept -/

theorem withBlock_params {n : Nat} {s rest t : State} (h : withBlock n s rest = .next t) (hrest : rest.params = s.params) :
    t.params = s.params := by
  obtain rfl | ⟨e, rfl⟩ := withBlock_next h
  · exact hrest
  · rfl

theorem exec_params {i : Instr} {s t : State} (h : exec i s = .next t) : t.params = s.params := by
  cases i with
  | ret => obtain ⟨st, a, _, rfl⟩ | ⟨e, rfl⟩ := execRet_next h <;> rfl
  | call nnn => obtain ⟨_, rfl⟩ | ⟨e, rfl⟩ := execCall_next h <;> rfl
  | drw | bcd | dump | load => exact withBlock_params h rfl
  | cls | jp | se | sne | ld | add | mov | and | xor | addr | sub | shr | ldi | rnd | skp | sknp | getdt | setdt | setst
  | addi | font => cases h; rfl

theorem cpuStep_params {s t : State} (h : cpuStep s = .next t) : t.params = s.params := by
  rcases cpuStep_cases s with ⟨_, _, hc⟩ | ⟨_, _, hc⟩ | ⟨_, _, _, _, hc⟩ | ⟨_, _, i, _, hc⟩ <;> rw [hc] at h
  · cases h; rfl
  · rw [raise_next h]
  · rw [raise_next h]
  · exact exec_params h

theorem step_params {s t : State} (h : step s = .next t) : t.params = s.params := by
  obtain ⟨_, rfl⟩ | ⟨_, u, hu, rfl⟩ := step_next.mp h
  · rfl
  · simpa using cpuStep_params hu

end Sys2Proof.Machine

namespace Sys2Proof.Proofs

open Sys2Proof.Machine

/-- Settles O60: boot sets the parameters, the timer's move and the CPU's four ways of stepping keep them. -/
theorem parametersFixed : Obligations.ParametersFixed := by
  refine ⟨fun image p s h => ?_, fun s t => step_params, rfl, rfl, rfl⟩
  obtain ⟨_, rfl⟩ := boot_eq_some.mp h
  rfl

end Sys2Proof.Proofs

/-! What each instruction may write, said once as a table (spec/10_state.md R20 to R33). -/

namespace Sys2Proof.Machine

open Sys2Proof.Safety

@[simp] theorem Plane.clear_coll (p : Plane) : p.clear.coll = p.coll := rfl

/-- `sameBut` piece by piece. -/
theorem sameBut_iff {parts : List Part} {s t : State} :
    sameBut parts s t ↔
      (.v ∈ parts ∨ t.v = s.v) ∧ (.i ∈ parts ∨ t.i = s.i) ∧ (.pc ∈ parts ∨ t.pc = s.pc) ∧
      (.stack ∈ parts ∨ t.stack = s.stack) ∧ (.mem ∈ parts ∨ ∀ a, t.byteAt a = s.byteAt a) ∧
      (.dt ∈ parts ∨ t.dt = s.dt) ∧ (.disp ∈ parts ∨ t.plane.cells = s.plane.cells) ∧
      (.coll ∈ parts ∨ t.plane.coll = s.plane.coll) ∧ (.err ∈ parts ∨ t.err = s.err) ∧
      (.params ∈ parts ∨ t.params = s.params) ∧ (.env ∈ parts ∨ t.env = s.env) := by
  simp only [or_iff_not_imp_left]
  constructor
  · intro h
    exact ⟨h .v, h .i, h .pc, h .stack, h .mem, h .dt, h .disp, h .coll, h .err, h .params, h .env⟩
  · rintro ⟨hv, hi, hpc, hstack, hmem, hdt, hdisp, hcoll, herr, hparams, henv⟩ p
    cases p <;> assumption

/-- Taking an exception writes ERR alone (R183). -/
theorem sameBut_withErr {parts : List Part} (h : .err ∈ parts) (s : State) (e : Option ErrRecord) :
    sameBut parts s { s with err := e } := by
  simp [sameBut_iff, h, State.byteAt]

/-- A block instruction that may raise keeps what its result keeps. -/
theorem withBlock_sameBut {parts : List Part} {n : Nat} {s rest t : State} (h : withBlock n s rest = .next t)
    (herr : .err ∈ parts) (hrest : sameBut parts s rest) : sameBut parts s t := by
  obtain rfl | ⟨e, rfl⟩ := withBlock_next h
  · exact hrest
  · exact sameBut_withErr herr s _

/-- The pieces of state an instruction may write: its result's, and ERR where it may raise. -/
def mayWrite : Instr → List Part
  | .cls => [.disp, .pc]
  | .ret | .call _ => [.stack, .pc, .err]
  | .jp _ | .se _ _ | .sne _ _ | .skp _ | .sknp _ | .setst _ => [.pc]
  | .ld _ _ | .add _ _ | .mov _ _ | .and _ _ | .xor _ _ | .addr _ _ | .sub _ _ | .shr _ | .getdt _ => [.v, .pc]
  | .rnd _ _ => [.v, .pc, .env]
  | .ldi _ | .addi _ | .font _ => [.i, .pc]
  | .setdt _ => [.dt, .pc]
  | .drw _ _ _ => [.v, .disp, .coll, .pc, .err]
  | .bcd _ => [.mem, .pc, .err]
  | .dump _ => [.mem, .i, .pc, .err]
  | .load _ => [.v, .i, .pc, .err]

/-- Each instruction leaves every piece of state it does not list unchanged. -/
theorem exec_sameBut_mayWrite {i : Instr} {s t : State} (h : exec i s = .next t) : sameBut (mayWrite i) s t := by
  cases i with
  | ret =>
    obtain ⟨st, a, _, rfl⟩ | ⟨e, rfl⟩ := execRet_next h
    · simp [sameBut_iff, mayWrite, State.byteAt]
    · exact sameBut_withErr (by simp [mayWrite]) s _
  | call nnn =>
    obtain ⟨_, rfl⟩ | ⟨e, rfl⟩ := execCall_next h
    · simp [sameBut_iff, mayWrite]
    · exact sameBut_withErr (by simp [mayWrite]) s _
  | drw | bcd | dump | load =>
    exact withBlock_sameBut h (by simp [mayWrite]) (by simp [sameBut_iff, mayWrite, State.setFlag])
  | cls | jp | se | sne | ld | add | mov | and | xor | addr | sub | shr | ldi | rnd | skp | sknp | getdt | setdt | setst
  | addi | font =>
    cases h
    simp [sameBut_iff, mayWrite, State.setRegFlag, State.setFlag]

/-- A write of one register changes no other. -/
theorem State.eq_of_reg_setReg_ne {s : State} {x r : Nibble} {b : Byte} (h : (s.setReg x b).reg r ≠ s.reg r) : x = r := by
  by_contra hx
  exact h (by simp [Ne.symm hx])

/-- A load of fewer than sixteen registers leaves VF. -/
theorem State.reg_vf_loadRegs {s : State} {bs : List Byte} (h : bs.length ≤ 15) : (s.loadRegs bs).reg vf = s.reg vf := by
  have hvf : vf.toNat = 15 := rfl
  rw [State.reg_loadRegs, if_neg (by omega)]

end Sys2Proof.Machine

namespace Sys2Proof.Proofs

open Sys2Proof.Machine

/-- Settles O23: each clause says that its piece is not in the table's row of an instruction other than those it names. -/
theorem writersOfEachPart : Obligations.WritersOfEachPart := by
  intro i s t h
  have hkeep := exec_sameBut_mayWrite h
  refine ⟨fun hi => hkeep .mem ?_, fun hi => hkeep .disp ?_, fun hi => hkeep .coll ?_, fun hi => hkeep .stack ?_,
    fun hi => hkeep .i ?_, fun hi => hkeep .dt ?_, fun hi => hkeep .env ?_, hkeep .params ?_, fun hi => hkeep .v ?_⟩ <;>
    cases i <;> simp_all [mayWrite]

/-- Settles O24: beside the flag writers an instruction that writes registers at all reaches VF only where its destination does. -/
theorem onlyFlagWritersClobberVf : Obligations.OnlyFlagWritersClobberVf := by
  intro i s t h hvf
  cases i with
  | addr x y => exact .inl ⟨x, y, .inl rfl⟩
  | sub x y => exact .inl ⟨x, y, .inr (.inl rfl)⟩
  | shr x => exact .inl ⟨x, 0, .inr (.inr rfl)⟩
  | drw x y n => exact .inr (.inl ⟨x, y, n, rfl⟩)
  | ld | add | mov | and | xor | rnd | getdt =>
    cases h
    obtain rfl := State.eq_of_reg_setReg_ne hvf
    simp
  | load x =>
    obtain rfl | ⟨e, rfl⟩ := withBlock_next h
    · have hx : x = vf := by
        by_contra hx
        have hne : x.toNat ≠ 15 := fun e => hx (BitVec.eq_of_toNat_eq e)
        have hlt := x.isLt
        exact hvf (State.reg_vf_loadRegs (by rw [State.bytesAt_length, blockLength]; omega))
      exact .inr (.inr ⟨0, 0, by simp [hx]⟩)
    · exact absurd rfl hvf
  | cls | ret | jp | call | se | sne | ldi | skp | sknp | setdt | setst | addi | font | bcd | dump =>
    exact absurd (State.reg_congr (exec_sameBut_mayWrite h .v (by simp [mayWrite])) vf) hvf

end Sys2Proof.Proofs

/-! The display is no part of what the other instructions compute (spec/10_state.md R33, spec/43_display.md R147). -/

namespace Sys2Proof.Machine

/-- The block check does not look at the display. -/
theorem withBlock_setPlane (n : Nat) (s rest : State) (p : Plane) :
    withBlock n (s.setPlane p) (rest.setPlane p) = onNext (·.setPlane p) (withBlock n s rest) := by
  rw [withBlock, withBlock, apply_ite (onNext _)]
  rfl

/-- For an instruction other than CLS and DRW, putting another plane in first or last is the same. -/
theorem exec_setPlane {i : Instr} (hcls : i ≠ .cls) (hdrw : ∀ x y n, i ≠ .drw x y n) (s : State) (p : Plane) :
    exec i (s.setPlane p) = onNext (·.setPlane p) (exec i s) := by
  cases i with
  | cls => exact absurd rfl hcls
  | drw x y n => exact absurd rfl (hdrw x y n)
  | ret =>
    simp only [exec, execRet, State.pop, State.setPlane_stack]
    cases s.stack.getLast? <;> rfl
  | call nnn =>
    rw [exec, exec, execCall, execCall, apply_ite (onNext _)]
    rfl
  | bcd | dump | load =>
    refine Eq.trans ?_ (withBlock_setPlane _ s _ p)
    rfl
  | jp | se | sne | ld | add | mov | and | xor | addr | sub | shr | ldi | rnd | skp | sknp | getdt | setdt | setst
  | addi | font => rfl

end Sys2Proof.Machine

namespace Sys2Proof.Proofs

open Sys2Proof.Machine

/-- Settles O26: another plane may be put in first or last. -/
theorem onlyDrawSeesDisplay : Obligations.OnlyDrawSeesDisplay := by
  intro i s t p hcls hdrw h
  exact (exec_setPlane hcls hdrw s p).trans (congrArg (onNext (·.setPlane p)) h)

end Sys2Proof.Proofs

/-! How an instruction moves PC and the stack, said once (spec/10_state.md R25, spec/40_flow.md). -/

namespace Sys2Proof.Machine

@[simp] theorem target_toNat (nnn : Addr) : (target nnn).toNat = nnn.toNat :=
  BitVec.toNat_setWidth_of_le (by decide)

/-- The ways PC and the stack move: on in a line (or not at all, where the instruction raises), to a JP's target, into a subroutine
the stack has room for, or back from one. -/
inductive ControlMove : Instr → State → State → Prop
  | line {i : Instr} {s t : State} (d : Nat) (hd : d = 0 ∨ d = 2 ∨ d = 4) (hpc : t.pc = s.pc + BitVec.ofNat 16 d)
      (hstack : t.stack = s.stack) : ControlMove i s t
  | jump {s t : State} (nnn : Addr) (hpc : t.pc = target nnn) (hstack : t.stack = s.stack) : ControlMove (.jp nnn) s t
  | call {s t : State} (nnn : Addr) (hroom : stackFull s.params.stackDepth s.stack = false) (hpc : t.pc = target nnn)
      (hstack : t.stack = s.stack ++ [s.pc + 2#16]) : ControlMove (.call nnn) s t
  | ret {s t : State} (hstack : s.stack = t.stack ++ [t.pc]) : ControlMove .ret s t

theorem ControlMove.withErr (i : Instr) (s : State) (e : Option ErrRecord) : ControlMove i s { s with err := e } :=
  .line 0 (by decide) (BitVec.add_zero _).symm rfl

theorem ControlMove.skipIf (i : Instr) (s : State) (c : Bool) : ControlMove i s (s.skipIf c) := by
  cases c with
  | false => exact .line 2 (by decide) rfl rfl
  | true => exact .line 4 (by decide) rfl rfl

theorem ControlMove.withBlock {i : Instr} {n : Nat} {s rest t : State} (h : withBlock n s rest = .next t)
    (hpc : rest.pc = s.pc + 2#16) (hstack : rest.stack = s.stack) : ControlMove i s t := by
  obtain rfl | ⟨e, rfl⟩ := withBlock_next h
  · exact .line 2 (by decide) hpc hstack
  · exact .withErr i s _

theorem exec_controlMove {i : Instr} {s t : State} (h : exec i s = .next t) : ControlMove i s t := by
  cases i with
  | jp nnn => cases h; exact .jump nnn rfl rfl
  | call nnn =>
    obtain ⟨hroom, rfl⟩ | ⟨e, rfl⟩ := execCall_next h
    · exact .call nnn hroom rfl rfl
    · exact .withErr _ s _
  | ret =>
    obtain ⟨st, a, hst, rfl⟩ | ⟨e, rfl⟩ := execRet_next h
    · exact .ret hst
    · exact .withErr _ s _
  | se | sne | skp | sknp => cases h; exact .skipIf _ s _
  | drw | bcd | dump | load => exact .withBlock h rfl rfl
  | cls | ld | add | mov | and | xor | addr | sub | shr | ldi | rnd | getdt | setdt | setst | addi | font =>
    cases h
    exact .line 2 (by decide) rfl rfl

end Sys2Proof.Machine

namespace Sys2Proof.Proofs

open Sys2Proof.Machine

/-- Settles O27: PC moves by an even number, to an even target or to an entry that was even, and a CALL pushes PC + 2. -/
theorem evenPcKept : Obligations.EvenPcKept := by
  intro i s t htarget h hpc hstack
  cases exec_controlMove h with
  | line d hd hpc' hstack' =>
    rw [hpc', hstack', BitVec.toNat_add, BitVec.toNat_ofNat]
    exact ⟨by omega, hstack⟩
  | jump nnn hpc' hstack' =>
    rw [hpc', hstack', target_toNat]
    exact ⟨htarget nnn (.inl rfl), hstack⟩
  | call nnn _ hpc' hstack' =>
    rw [hpc', hstack', target_toNat, List.forall_mem_append, List.forall_mem_singleton, BitVec.toNat_add, BitVec.toNat_ofNat]
    exact ⟨htarget nnn (.inr rfl), hstack, by omega⟩
  | ret hst =>
    rw [hst, List.forall_mem_append, List.forall_mem_singleton] at hstack
    exact hstack.symm

end Sys2Proof.Proofs

/-! The invariant of memory, PC and the stack (spec/10_state.md R25, R31, spec/20_memory.md section 3). -/

namespace Sys2Proof.Machine

open Sys2Proof.Safety

/-- A block instruction that stores its block at I, and only where it is in memory, keeps the canonical form. -/
theorem withBlock_mem_wf {n : Nat} {s rest t : State} {bs : List Byte} (h : withBlock n s rest = .next t) (hn : n ≠ 0)
    (hlen : bs.length = n) (hrest : rest.mem = Memory.writeBytes s.params.font s.mem s.i.toNat bs)
    (hwf : Memory.wf s.params.font s.mem = true) : Memory.wf s.params.font t.mem = true := by
  rcases withBlock_cases n s rest with ⟨hin, hr⟩ | ⟨_, hr⟩
  · cases hr.symm.trans h
    rw [hrest]
    exact Memory.wf_writeBytes hwf bs _ (by rw [hlen]; exact hin.resolve_left hn)
  · rw [raise_next (hr.symm.trans h)]
    exact hwf

theorem exec_mem_wf {i : Instr} {s t : State} (h : exec i s = .next t) (hwf : Memory.wf s.params.font s.mem = true) :
    Memory.wf s.params.font t.mem = true := by
  cases i with
  | bcd x => exact withBlock_mem_wf h (by decide) rfl rfl hwf
  | dump x => exact withBlock_mem_wf h (Nat.succ_ne_zero _) (State.regsUpTo_length s _ x.isLt) rfl hwf
  | ret => obtain ⟨st, a, _, rfl⟩ | ⟨e, rfl⟩ := execRet_next h <;> exact hwf
  | call nnn => obtain ⟨_, rfl⟩ | ⟨e, rfl⟩ := execCall_next h <;> exact hwf
  | drw | load => obtain rfl | ⟨e, rfl⟩ := withBlock_next h <;> exact hwf
  | cls | jp | se | sne | ld | add | mov | and | xor | addr | sub | shr | ldi | rnd | skp | sknp | getdt | setdt | setst
  | addi | font => cases h; exact hwf

/-- An entry more fits exactly where the stack is not full. -/
theorem stackFits_push {depth : Option Config.Depth} {st : List Word} {a : Word} :
    stackFits depth (st ++ [a]) = true ↔ stackFull depth st = false := by
  cases depth <;> simp [stackFits, stackFull]

theorem stackFits_of_push {depth : Option Config.Depth} {st : List Word} {a : Word}
    (h : stackFits depth (st ++ [a]) = true) : stackFits depth st = true := by
  cases depth with
  | none => rfl
  | some d =>
    simp only [stackFits, List.length_append, List.length_singleton, decide_eq_true_eq] at h ⊢
    omega

/-- From a PC a fetch can read at (R181), moving PC and the stack keeps their bounds. -/
theorem ControlMove.inv {i : Instr} {s t : State} (hmove : ControlMove i s t) (hs : Inv s) (hpc : s.pc.toNat < 4095)
    (hparams : t.params = s.params) (hmem : Memory.wf s.params.font t.mem = true) : Inv t := by
  obtain ⟨_, _, hfits, hall⟩ := hs
  rw [Safety.Inv, hparams]
  refine ⟨hmem, ?_⟩
  simp only [List.all_eq_true, decide_eq_true_eq] at hall ⊢
  cases hmove with
  | line d hd hpc' hstack =>
    rw [hpc', hstack, BitVec.toNat_add, BitVec.toNat_ofNat]
    exact ⟨by omega, hfits, hall⟩
  | jump nnn hpc' hstack =>
    rw [hpc', hstack, target_toNat]
    exact ⟨by omega, hfits, hall⟩
  | call nnn hroom hpc' hstack =>
    rw [hpc', hstack, target_toNat, List.forall_mem_append, List.forall_mem_singleton, BitVec.toNat_add, BitVec.toNat_ofNat]
    exact ⟨by omega, stackFits_push.mpr hroom, hall, by omega⟩
  | ret hst =>
    rw [hst] at hfits
    rw [hst, List.forall_mem_append, List.forall_mem_singleton] at hall
    exact ⟨by omega, stackFits_of_push hfits, hall.1⟩

theorem cpuStep_inv {s t : State} (hs : Inv s) (h : cpuStep s = .next t) : Inv t := by
  rcases cpuStep_cases s with ⟨_, _, hc⟩ | ⟨_, _, hc⟩ | ⟨_, _, _, _, hc⟩ | ⟨_, hpc, i, _, hc⟩ <;> rw [hc] at h
  · cases h; exact hs
  · rw [raise_next h]; exact hs
  · rw [raise_next h]; exact hs
  · exact (exec_controlMove h).inv hs hpc (exec_params h) (exec_mem_wf h hs.1)

theorem step_inv {s t : State} (hs : Inv s) (h : step s = .next t) : Inv t := by
  obtain ⟨_, rfl⟩ | ⟨_, u, hu, rfl⟩ := step_next.mp h
  · exact hs
  · exact (cpuStep_inv hs hu : Inv u)

theorem boot_inv {image : List Byte} {p : Config.Params} {s : State} (h : boot image p = some s) : Inv s := by
  obtain ⟨hlen, rfl⟩ := boot_eq_some.mp h
  have hwf : Memory.wf p.font (Memory.writeBytes p.font State.reset.mem Config.loadAddr image) = true :=
    Memory.wf_writeBytes Memory.wf_reset image _ (by simp only [Config.loadAddr, Config.memSize]; omega)
  have hpc : State.reset.pc.toNat ≤ 4098 := by decide
  have hfits : stackFits p.stackDepth [] = true := by cases p.stackDepth <;> simp [stackFits]
  exact ⟨hwf, hpc, hfits, rfl⟩

theorem boot_errExplained {image : List Byte} {p : Config.Params} {s : State} (h : boot image p = some s) : ErrExplained s := by
  obtain ⟨_, rfl⟩ := boot_eq_some.mp h
  exact nofun

end Sys2Proof.Machine

namespace Sys2Proof.Proofs

open Sys2Proof.Machine

/-- Settles O18: memory is stored to only inside itself, and PC and the stack move in one of four ways. -/
theorem stepKeepsInvariant : Obligations.StepKeepsInvariant :=
  fun _ _ => step_inv

/-- Settles O9: booted memory is a store inside empty memory, the stack is empty, and no error is recorded. -/
theorem invariantsAfterBoot : Obligations.InvariantsAfterBoot :=
  fun _ _ _ h => ⟨boot_inv h, boot_errExplained h⟩

end Sys2Proof.Proofs

/-! The error record explains itself by the table of spec/60_exceptions.md R187. -/

namespace Sys2Proof.Machine

open Sys2Proof.Safety

/-- What a running machine may answer: a state without error, or its own state with a record that fits it (R183, R187). -/
def answersExplained (s t : State) : Prop := t.err = none ∨ ∃ e, t = { s with err := some e } ∧ errFits s e

/-- Where the stack fits its depth, a full one holds exactly STACK_DEPTH entries (log 13). -/
theorem stackAtDepth_of_full {s : State} (hfits : stackFits s.params.stackDepth s.stack = true)
    (hfull : stackFull s.params.stackDepth s.stack = true) : stackAtDepth s := by
  unfold stackAtDepth
  cases hd : s.params.stackDepth with
  | none => simp [hd, stackFull] at hfull
  | some d =>
    simp only [hd, stackFits, stackFull, decide_eq_true_eq] at hfits hfull
    rw [Option.map_some, Nat.le_antisymm hfull hfits]

/-- A record of the kind the table names for the running instruction, with the raw word and the lowest bad address from I on, fits. -/
theorem errFits_of_executes {i : Instr} {s : State} (hrun : executes s i) {k : ErrKind} {b : BitVec 17}
    (hcause : execCause i s = some k) (hb : k = .outOfBounds → b = badAddr s.i) :
    errFits s { kind := k, pc := s.pc, word := s.wordAtPc, badaddr := b } := by
  obtain ⟨_, hpc, hdec⟩ := hrun
  have hfetch : ¬4095 ≤ s.pc.toNat := by omega
  refine ⟨rfl, .inl rfl, by simp [stepCause, hfetch, hdec, hcause], fun hk => ?_⟩
  simp [hb hk, lowestBad, hfetch]

theorem withBlock_answersExplained {i : Instr} {n : Nat} {s rest t : State} (hrun : executes s i)
    (h : withBlock n s rest = .next t) (hrest : rest.err = s.err)
    (hcause : 0 < n → 4096 < s.i.toNat + n → execCause i s = some .outOfBounds) : answersExplained s t := by
  rcases withBlock_cases n s rest with ⟨_, hr⟩ | ⟨⟨hn, hout⟩, hr⟩
  · cases hr.symm.trans h
    exact .inl (hrest.trans hrun.1)
  · exact .inr ⟨_, raise_next (hr.symm.trans h), errFits_of_executes hrun (hcause hn hout) fun _ => rfl⟩

theorem exec_answersExplained {i : Instr} {s t : State} (hrun : executes s i)
    (hfits : stackFits s.params.stackDepth s.stack = true) (h : exec i s = .next t) : answersExplained s t := by
  cases i with
  | ret =>
    rcases s.pop_cases with ⟨hst, hp⟩ | ⟨st, a, _, hp⟩ <;> simp only [exec, execRet, hp] at h
    · exact .inr ⟨_, raise_next h, errFits_of_executes hrun (by simp [execCause, hst]) nofun⟩
    · cases h; exact .inl hrun.1
  | call nnn =>
    simp only [exec, execCall] at h
    split at h
    · next hfull =>
      exact .inr ⟨_, raise_next h, errFits_of_executes hrun (if_pos (stackAtDepth_of_full hfits hfull)) nofun⟩
    · cases h; exact .inl hrun.1
  | bcd x => exact withBlock_answersExplained hrun h rfl fun _ hout => if_pos (by omega)
  | dump x | load x =>
    exact withBlock_answersExplained hrun h rfl fun _ hout => if_pos (by rw [blockLength] at hout; omega)
  | drw x y n => exact withBlock_answersExplained hrun h rfl fun hn hout => if_pos (by omega)
  | cls | jp | se | sne | ld | add | mov | and | xor | addr | sub | shr | ldi | rnd | skp | sknp | getdt | setdt | setst
  | addi | font => exact .inl ((exec_sameBut_mayWrite h .err (by simp [mayWrite])).trans hrun.1)

theorem cpuStep_answersExplained {s t : State} (hs : s.err = none)
    (hfits : stackFits s.params.stackDepth s.stack = true) (h : cpuStep s = .next t) : answersExplained s t := by
  rcases cpuStep_cases s with ⟨e, he, _⟩ | ⟨_, hpc, hc⟩ | ⟨_, hpc, r, hdec, hc⟩ | ⟨_, hpc, i, hdec, hc⟩
  · simp [hs] at he
  · refine .inr ⟨_, raise_next (hc.symm.trans h), rfl, .inr hpc, by simp [stepCause, hpc], fun _ => ?_⟩
    simp [lowestBad, hpc]
  · have hfetch : ¬4095 ≤ s.pc.toNat := by omega
    exact .inr ⟨_, raise_next (hc.symm.trans h), rfl, .inl rfl, by simp [stepCause, hfetch, hdec], nofun⟩
  · exact exec_answersExplained ⟨hs, hpc, hdec⟩ hfits (hc.symm.trans h)

/-- A record that stands is left with its state by a halted CPU, and a new one fits the state it is written into. -/
theorem cpuStep_errExplained {s t : State} (hs : Inv s) (he : ErrExplained s) (h : cpuStep s = .next t) : ErrExplained t := by
  cases herr : s.err with
  | some e =>
    rw [cpuStep, herr] at h
    cases h
    exact he
  | none =>
    obtain ⟨_, _, hfits, _⟩ := hs
    rcases cpuStep_answersExplained herr hfits h with hnone | ⟨e, rfl, hfit⟩
    · simp [ErrExplained, hnone]
    · rintro _ ⟨⟩
      exact hfit

theorem step_errExplained {s t : State} (hs : Inv s) (he : ErrExplained s) (h : step s = .next t) : ErrExplained t := by
  obtain ⟨_, rfl⟩ | ⟨_, u, hu, rfl⟩ := step_next.mp h
  · exact he
  · exact (cpuStep_errExplained hs he hu : ErrExplained u)

end Sys2Proof.Machine

namespace Sys2Proof.Proofs

open Sys2Proof.Machine

/-- Settles O19: every raise writes a record that fits, and neither the halted CPU nor a tick moves what it is read against. -/
theorem stepKeepsErrExplained : Obligations.StepKeepsErrExplained :=
  fun _ _ => step_errExplained

end Sys2Proof.Proofs

/-! Runs: every step answers a next state, so a run of any length ends, and what every step keeps holds there. -/

namespace Sys2Proof.Machine

open Sys2Proof.Safety

theorem withBlock_answers (n : Nat) (s rest : State) : ∃ t, withBlock n s rest = .next t := by
  rcases withBlock_cases n s rest with ⟨_, hr⟩ | ⟨_, hr⟩ <;> exact ⟨_, hr⟩

theorem exec_answers (i : Instr) (s : State) : ∃ t, exec i s = .next t := by
  cases i with
  | ret => rcases s.pop_cases with ⟨_, hp⟩ | ⟨st, a, _, hp⟩ <;> simp only [exec, execRet, hp] <;> exact ⟨_, rfl⟩
  | call nnn => simp only [exec, execCall]; split <;> exact ⟨_, rfl⟩
  | drw | bcd | dump | load => exact withBlock_answers _ s _
  | cls | jp | se | sne | ld | add | mov | and | xor | addr | sub | shr | ldi | rnd | skp | sknp | getdt | setdt | setst
  | addi | font => exact ⟨_, rfl⟩

theorem cpuStep_answers (s : State) : ∃ t, cpuStep s = .next t := by
  rcases cpuStep_cases s with ⟨_, _, hc⟩ | ⟨_, _, hc⟩ | ⟨_, _, _, _, hc⟩ | ⟨_, _, i, _, hc⟩ <;> rw [hc]
  · exact ⟨_, rfl⟩
  · exact ⟨_, rfl⟩
  · exact ⟨_, rfl⟩
  · exact exec_answers i s

theorem step_answers (s : State) : ∃ t, step s = .next t := by
  cases hm : s.mover with
  | timer => exact ⟨_, step_next.mpr (.inl ⟨hm, rfl⟩)⟩
  | cpu =>
    obtain ⟨u, hu⟩ := cpuStep_answers s
    exact ⟨_, step_next.mpr (.inr ⟨hm, u, hu, rfl⟩)⟩

theorem run_succ {n : Nat} {s u : State} (h : step s = .next u) :
    Host.Core.run core (n + 1) s = Host.Core.run core n u := by
  have hstep : core.step s = .next u := h
  simp only [Host.Core.run, hstep]

/-- A property every step keeps holds where a run of any length from it ends. -/
theorem run_keeps {P : State → Prop} (hstep : ∀ s t, P s → step s = .next t → P t) (n : Nat) {s : State} (hs : P s) :
    ∃ t, Host.Core.run core n s = .next t ∧ P t := by
  induction n generalizing s with
  | zero => exact ⟨s, rfl, hs⟩
  | succ n ih =>
    obtain ⟨u, hu⟩ := step_answers s
    rw [run_succ hu]
    exact ih (hstep s u hs hu)

end Sys2Proof.Machine

namespace Sys2Proof.Proofs

open Sys2Proof.Machine Sys2Proof.Safety

/-- Settles O20: both invariants hold after boot (O9) and every step keeps the two together (O18, O19). -/
theorem everyRunKeepsInvariants : Obligations.EveryRunKeepsInvariants := by
  intro image p s h n
  refine run_keeps (P := fun s => Inv s ∧ ErrExplained s) ?_ n ⟨boot_inv h, boot_errExplained h⟩
  rintro s t ⟨hinv, herr⟩ hstep
  exact ⟨step_inv hinv hstep, step_errExplained hinv herr hstep⟩

end Sys2Proof.Proofs

/-! What reads memory and what a store leaves there (spec/20_memory.md R50, R54, R62). -/

namespace Sys2Proof.Machine

open Sys2Proof.Safety

/-! ## A word of two bytes, most significant byte first (R50) -/

@[simp] theorem extract_high_wordOfBytes (hi lo : Byte) : (wordOfBytes hi lo).extractLsb' 8 8 = hi :=
  BitVec.extractLsb'_append_eq_left

@[simp] theorem extract_low_wordOfBytes (hi lo : Byte) : (wordOfBytes hi lo).extractLsb' 0 8 = lo :=
  BitVec.extractLsb'_append_eq_right

/-- The fetch answers the word at PC where both of its bytes are in memory. -/
theorem State.fetch_eq_some {s : State} (h : s.pc.toNat + 1 ≤ 4095) : s.fetch = some s.wordAtPc := by
  rw [State.fetch_eq, if_pos (by omega)]

/-- After a jump to an address whose two bytes are in memory, the fetch answers those two bytes. -/
theorem State.fetch_jump {s : State} {a : Word} (h : a.toNat + 1 ≤ 4095) :
    (s.jump a).fetch = some (wordOfBytes (s.byteAt a.toNat) (s.byteAt (a.toNat + 1))) :=
  State.fetch_eq_some (s := s.jump a) h

/-! ## A block in memory -/

/-- A block instruction whose block is in memory answers its result. -/
theorem withBlock_of_inMemory {n : Nat} {s : State} (h : n = 0 ∨ s.i.toNat + n ≤ 4096) (rest : State) :
    withBlock n s rest = .next rest := by
  rcases withBlock_cases n s rest with ⟨_, hr⟩ | ⟨hout, _⟩
  · exact hr
  · omega

/-- A byte after a store of bytes inside canonical memory. -/
theorem State.byteAt_storeBytes {s : State} (hwf : Memory.wf s.params.font s.mem = true) {a : Nat} {bs : List Byte}
    (ha : a + bs.length ≤ 4096) (b : Nat) :
    (s.storeBytes a bs).byteAt b = if a ≤ b ∧ b < a + bs.length then bs.getD (b - a) 0#8 else s.byteAt b :=
  Memory.read_writeBytes hwf bs a ha b

theorem State.getD_regsUpTo (s : State) {n : Nat} {r : Nibble} (hr : r.toNat < n) :
    (s.regsUpTo n).getD r.toNat 0#8 = s.reg r := by
  simp [State.regsUpTo, State.reg, hr, Vector.getElem?_eq_getElem r.isLt]

/-- Where the first `n` registers are stored at `a`, register `r` stands at `a + r` (spec/42_index_memory.md R125). -/
theorem State.byteAt_storeRegs {s : State} (hwf : Memory.wf s.params.font s.mem = true) {a n : Nat} (hn : n ≤ 16)
    (ha : a + n ≤ 4096) {r : Nibble} (hr : r.toNat < n) :
    (s.storeBytes a (s.regsUpTo n)).byteAt (a + r.toNat) = s.reg r := by
  have hlen := s.regsUpTo_length n hn
  rw [State.byteAt_storeBytes hwf (by omega), if_pos (by omega), Nat.add_sub_cancel_left, State.getD_regsUpTo s hr]

/-! ## The instructions that raise on the stack, where they do not -/

theorem execRet_of_append {s : State} {st : List Word} {a : Word} (h : s.stack = st ++ [a]) :
    execRet s = .next { s with stack := st, pc := a } := by
  simp [execRet, State.pop, State.jump, h]

theorem execCall_of_room {s : State} (h : stackFull s.params.stackDepth s.stack = false) (nnn : Addr) :
    execCall nnn s = .next ((s.push (s.pc + 2#16)).jump (target nnn)) := by
  simp [execCall, h]

/-- A stack that fits its depth and does not hold exactly STACK_DEPTH entries has room. -/
theorem stackFull_eq_false {s : State} (hfits : stackFits s.params.stackDepth s.stack = true) (h : ¬stackAtDepth s) :
    stackFull s.params.stackDepth s.stack = false :=
  Bool.eq_false_iff.mpr fun hfull => h (stackAtDepth_of_full hfits hfull)

/-- RET raises on the empty stack only. -/
theorem stack_eq_append_of_execCause_ret {s : State} (h : execCause .ret s = none) : ∃ st a, s.stack = st ++ [a] := by
  rcases s.pop_cases with ⟨hst, _⟩ | ⟨st, a, hst, _⟩
  · simp [execCause, hst] at h
  · exact ⟨st, a, hst⟩

/-- CALL raises on the stack of exactly STACK_DEPTH entries only. -/
theorem not_stackAtDepth_of_execCause_call {nnn : Addr} {s : State} (h : execCause (.call nnn) s = none) : ¬stackAtDepth s :=
  fun hdepth => nomatch (if_pos hdepth).symm.trans h

end Sys2Proof.Machine

namespace Sys2Proof.Proofs

open Sys2Proof.Machine

/-- Settles O11: the fetched word is laid out of the two bytes, and each is read back from its half. -/
theorem fetchBigEndian : Obligations.FetchBigEndian :=
  fun s h => ⟨s.wordAtPc, State.fetch_eq_some h, extract_high_wordOfBytes _ _, extract_low_wordOfBytes _ _⟩

/-- Settles O25: RET and CALL, where they do not raise, move the stack and PC alone, and the others do not name memory at all. -/
theorem otherInstructionsTouchNoMemory : Obligations.OtherInstructionsTouchNoMemory := by
  intro i s t m hblock hdrw h hcause hfits
  cases i with
  | bcd x => exact absurd rfl (hblock x).1
  | dump x => exact absurd rfl (hblock x).2.1
  | load x => exact absurd rfl (hblock x).2.2
  | drw x y n => exact absurd rfl (hdrw x y n)
  | ret =>
    obtain ⟨st, a, hst⟩ := stack_eq_append_of_execCause_ret hcause
    cases (execRet_of_append hst).symm.trans h
    exact ⟨rfl, execRet_of_append (s := { s with mem := m }) hst⟩
  | call nnn =>
    have hroom := stackFull_eq_false hfits (not_stackAtDepth_of_execCause_call hcause)
    cases (execCall_of_room hroom nnn).symm.trans h
    exact ⟨rfl, execCall_of_room (s := { s with mem := m }) hroom nnn⟩
  | cls | jp | se | sne | ld | add | mov | and | xor | addr | sub | shr | ldi | rnd | skp | sknp | getdt | setdt | setst
  | addi | font =>
    cases h
    exact ⟨rfl, rfl⟩

/-- Settles O50: the fetch reads at I and I + 1 what DUMP stored there, V0 and V1. -/
theorem fetchSeesStore : Obligations.FetchSeesStore := by
  intro x s hwf hx hin
  have hn : blockLength x ≤ 16 := x.isLt
  have hend : s.i.toNat + blockLength x ≤ 4096 := Nat.succ_le_succ hin
  have hv0 := State.byteAt_storeRegs hwf hn hend (r := 0#4) (Nat.succ_pos _)
  have hv1 := State.byteAt_storeRegs hwf hn hend (r := 1#4) (Nat.succ_lt_succ hx)
  refine ⟨_, withBlock_of_inMemory (.inr hend) _, ?_⟩
  exact (State.fetch_jump (by omega)).trans <| congrArg some (congrArg₂ wordOfBytes hv0 hv1)

end Sys2Proof.Proofs

/-! Encoding (spec/30_encoding.md R70 to R79): decoding inverts encoding up to the ignored bits, and what the decoder tells
instructions apart by is what the masks of the opcode map keep. -/

namespace Sys2Proof

/-! ## Decoding what was encoded (R77) -/

theorem wellFormed_eq_true (i : Instr) : wellFormed i = true := by
  cases i <;> rfl

theorem decodeWord_encode (i : Instr) : decodeWord (encode i) = .ok i := by
  cases i with
  | cls | ret => rfl
  | jp | call | ldi | se | sne | ld | add | rnd | drw => simp [encode, decodeWord]
  | mov | and | xor | addr | sub | shr => simp [encode, decodeWord, decodeFamily8]
  | skp | sknp => simp [encode, decodeWord, decodeFamilyE]
  | getdt | setdt | setst | addi | font | bcd | dump | load => simp [encode, decodeWord, decodeFamilyF]

/-- A word's two bytes at the head of a list decode as the word does, and the bytes after them are left (R70). -/
theorem decode_bytesOfWord_of_ok {w : Word} {i : Instr} (h : decodeWord w = .ok i) (rest : List Byte) :
    decode (bytesOfWord w ++ rest) = .ok (i, rest) := by
  simp [bytesOfWord, decode, wordOfBytes_extract, h]

open Laws.EncodesInRow in
/-- The laws of the encodings, one per instruction, put together. -/
theorem encodesInRow : ∀ i : Instr, Statement i
  | .cls => cls
  | .ret => ret
  | .jp nnn => jp nnn
  | .call nnn => call nnn
  | .se x nn => se x nn
  | .sne x nn => sne x nn
  | .ld x nn => ld x nn
  | .add x nn => add x nn
  | .mov x y => mov x y
  | .and x y => and x y
  | .xor x y => xor x y
  | .addr x y => addr x y
  | .sub x y => sub x y
  | .shr x => shr x
  | .ldi nnn => ldi nnn
  | .rnd x nn => rnd x nn
  | .drw x y n => drw x y n
  | .skp x => skp x
  | .sknp x => sknp x
  | .getdt x => getdt x
  | .setdt x => setdt x
  | .setst x => setst x
  | .addi x => addi x
  | .font x => font x
  | .bcd x => bcd x
  | .dump x => dump x
  | .load x => load x

theorem plainWord_encode (i : Instr) : plainWord (encode i) = true := (encodesInRow i).1

/-! ## A word from the values of its fields (R72) -/

theorem encodeX_of_fields {w : Word} {op x : Nibble} {nn : Byte} (hop : opField w = op) (hx : xField w = x)
    (hnn : nnField w = nn) : encodeX op x nn = w := by
  rw [← hop, ← hx, ← hnn, encodeX_fields]

theorem encodeXYN_of_fields {w : Word} {op x y n : Nibble} (hop : opField w = op) (hx : xField w = x)
    (hy : yField w = y) (hn : nField w = n) : encodeXYN op x y n = w := by
  rw [← hop, ← hx, ← hy, ← hn, encodeXYN_fields]

theorem encodeA_of_fields {w : Word} {op : Nibble} {nnn : Addr} (hop : opField w = op) (hnnn : nnnField w = nnn) :
    encodeA op nnn = w := by
  rw [← hop, ← hnnn, encodeA_fields]

/-! ## The ignored bits (R75) -/

/-- The word with its ignored bits set to 0, as an assembler emits it. -/
def clearIgnored (w : Word) : Word :=
  if opField w = 0x0#4 then encodeX 0x0 0x0 (nnField w)
  else if opField w = 0x8#4 ∧ nField w = 0x6#4 then encodeXYN 0x8 (xField w) 0x0 0x6
  else w

theorem clearIgnored_of_family0 {w : Word} (h : opField w = 0x0#4) : clearIgnored w = encodeX 0x0 0x0 (nnField w) :=
  if_pos h

theorem clearIgnored_of_shr {w : Word} (h : opField w = 0x8#4) (hn : nField w = 0x6#4) :
    clearIgnored w = encodeXYN 0x8 (xField w) 0x0 0x6 := by
  simp [clearIgnored, h, hn]

theorem clearIgnored_of_n {w : Word} {n : Nibble} (h : opField w = 0x8#4) (hn : nField w = n) (h6 : n ≠ 0x6#4) :
    clearIgnored w = w := by
  simp [clearIgnored, h, hn, h6]

theorem clearIgnored_of_op {w : Word} {op : Nibble} (h : opField w = op) (h0 : op ≠ 0x0#4) (h8 : op ≠ 0x8#4) :
    clearIgnored w = w := by
  simp [clearIgnored, h, h0, h8]

theorem xField_of_plain {w : Word} (hp : plainWord w = true) (h : opField w = 0x0#4) : xField w = 0x0#4 := by
  simp_all [plainWord, plainZ, opField, xField]

theorem yField_of_plain {w : Word} (hp : plainWord w = true) (h : opField w = 0x8#4) (hn : nField w = 0x6#4) :
    yField w = 0x0#4 := by
  simp_all [plainWord, plainShr, opField, yField, nField]

theorem clearIgnored_of_plain {w : Word} (hp : plainWord w = true) : clearIgnored w = w := by
  unfold clearIgnored
  split_ifs with h0 hshr
  · exact encodeX_of_fields h0 (xField_of_plain hp h0) rfl
  · obtain ⟨h8, hn⟩ := hshr
    exact encodeXYN_of_fields h8 rfl (yField_of_plain hp h8 hn) hn
  · rfl

/-! ## Encoding what was decoded (R77) -/

theorem encode_of_decodeFamily0 {w : Word} {i : Instr} (hop : opField w = 0x0#4) (h : decodeFamily0 w = .ok i) :
    encode i = clearIgnored w := by
  rw [clearIgnored_of_family0 hop]
  unfold decodeFamily0 at h
  split at h <;> cases h
  all_goals
    next hnn => rw [hnn]; rfl

theorem encode_of_decodeFamily8 {w : Word} {i : Instr} (hop : opField w = 0x8#4) (h : decodeFamily8 w = .ok i) :
    encode i = clearIgnored w := by
  unfold decodeFamily8 at h
  split at h <;> cases h
  case h_6 hn => exact (clearIgnored_of_shr hop hn).symm
  all_goals
    next hn =>
      rw [clearIgnored_of_n hop hn (by decide)]
      exact encodeXYN_of_fields hop rfl rfl hn

theorem encode_of_decodeFamilyE {w : Word} {i : Instr} (hop : opField w = 0xE#4) (h : decodeFamilyE w = .ok i) :
    encode i = clearIgnored w := by
  rw [clearIgnored_of_op hop (by decide) (by decide)]
  unfold decodeFamilyE at h
  split at h <;> cases h
  all_goals
    next hnn => exact encodeX_of_fields hop rfl hnn

theorem encode_of_decodeFamilyF {w : Word} {i : Instr} (hop : opField w = 0xF#4) (h : decodeFamilyF w = .ok i) :
    encode i = clearIgnored w := by
  rw [clearIgnored_of_op hop (by decide) (by decide)]
  unfold decodeFamilyF at h
  split at h <;> cases h
  all_goals
    next hnn => exact encodeX_of_fields hop rfl hnn

/-- A word that decodes is, but for its ignored bits, the encoding of what it decodes to. -/
theorem encode_of_decodeWord {w : Word} {i : Instr} (h : decodeWord w = .ok i) : encode i = clearIgnored w := by
  unfold decodeWord at h
  split at h
  case h_1 hop => exact encode_of_decodeFamily0 hop h
  case h_2 hop | h_3 hop | h_9 hop =>
    cases h
    rw [clearIgnored_of_op hop (by decide) (by decide)]
    exact encodeA_of_fields hop rfl
  case h_4 hop | h_5 hop | h_6 hop | h_7 hop | h_10 hop =>
    cases h
    rw [clearIgnored_of_op hop (by decide) (by decide)]
    exact encodeX_of_fields hop rfl rfl
  case h_8 hop => exact encode_of_decodeFamily8 hop h
  case h_11 hop =>
    cases h
    rw [clearIgnored_of_op hop (by decide) (by decide)]
    exact encodeXYN_of_fields hop rfl rfl rfl
  case h_12 hop => exact encode_of_decodeFamilyE hop h
  case h_13 hop => exact encode_of_decodeFamilyF hop h
  case h_14 => cases h

/-! ## What tells the instructions apart (R76, R78) -/

/-- The bits the decoder tells the instructions of family `op` apart by: the family, with the low byte, the low nibble or
nothing more. -/
def discriminantMask (op : Nibble) : Word :=
  match op with
  | 0x0#4 | 0xE#4 | 0xF#4 => 0xF0FF#16
  | 0x8#4 => 0xF00F#16
  | _ => 0xF000#16

/-- The bits of a word that select its instruction, the others 0. -/
def discriminant (w : Word) : Word := w &&& discriminantMask (opField w)

theorem opField_discriminantMask (op : Nibble) : opField (discriminantMask op) = 0xF#4 := by
  revert op; decide

theorem opField_and_discriminantMask (w : Word) (op : Nibble) : opField (w &&& discriminantMask op) = opField w := by
  have h := opField_discriminantMask op
  rw [opField] at h
  rw [opField, BitVec.extractLsb'_and, h, and_ones, opField]

@[simp] theorem opField_discriminant (w : Word) : opField (discriminant w) = opField w :=
  opField_and_discriminantMask w _

theorem and_F0FF (w : Word) : w &&& 0xF0FF#16 = encodeX (opField w) 0x0 (nnField w) := by
  rw [← encodeX_and_F0FF, encodeX_fields]

theorem and_F00F (w : Word) : w &&& 0xF00F#16 = encodeXYN (opField w) 0x0 0x0 (nField w) := by
  rw [← encodeXYN_and_F00F, encodeXYN_fields]

theorem discriminant_of_lowByte {w : Word} (h : opField w ∈ [0x0#4, 0xE#4, 0xF#4]) :
    discriminant w = encodeX (opField w) 0x0 (nnField w) := by
  have hmask : discriminantMask (opField w) = 0xF0FF#16 := by
    generalize opField w = op at h
    revert op; decide
  rw [discriminant, hmask, and_F0FF]

theorem discriminant_of_lowNibble {w : Word} (h : opField w = 0x8#4) :
    discriminant w = encodeXYN 0x8 0x0 0x0 (nField w) := by
  have hmask : discriminantMask (opField w) = 0xF00F#16 := by rw [h]; rfl
  rw [discriminant, hmask, and_F00F, h]; rfl

theorem nnField_discriminant {w : Word} (h : opField w ∈ [0x0#4, 0xE#4, 0xF#4]) :
    nnField (discriminant w) = nnField w := by
  rw [discriminant_of_lowByte h, nnField_encodeX]

theorem nField_discriminant {w : Word} (h : opField w = 0x8#4) : nField (discriminant w) = nField w := by
  rw [discriminant_of_lowNibble h, nField_encodeXYN]

theorem decodeFamily0_mnemonic {w v : Word} (h : nnField v = nnField w) :
    (decodeFamily0 v).map mnemonic = (decodeFamily0 w).map mnemonic := by
  unfold decodeFamily0
  rw [h]

theorem decodeFamily8_mnemonic {w v : Word} (h : nField v = nField w) :
    (decodeFamily8 v).map mnemonic = (decodeFamily8 w).map mnemonic := by
  unfold decodeFamily8
  rw [h]
  split <;> rfl

theorem decodeFamilyE_mnemonic {w v : Word} (h : nnField v = nnField w) :
    (decodeFamilyE v).map mnemonic = (decodeFamilyE w).map mnemonic := by
  unfold decodeFamilyE
  rw [h]
  split <;> rfl

theorem decodeFamilyF_mnemonic {w v : Word} (h : nnField v = nnField w) :
    (decodeFamilyF v).map mnemonic = (decodeFamilyF w).map mnemonic := by
  unfold decodeFamilyF
  rw [h]
  split <;> rfl

/-- Which instruction a word is, or why it is none, is read from its discriminant. -/
theorem decodeWord_discriminant (w : Word) : (decodeWord (discriminant w)).map mnemonic = (decodeWord w).map mnemonic := by
  unfold decodeWord
  rw [opField_discriminant]
  split
  case h_1 hop => exact decodeFamily0_mnemonic (nnField_discriminant (by simp [hop]))
  case h_8 hop => exact decodeFamily8_mnemonic (nField_discriminant hop)
  case h_12 hop => exact decodeFamilyE_mnemonic (nnField_discriminant (by simp [hop]))
  case h_13 hop => exact decodeFamilyF_mnemonic (nnField_discriminant (by simp [hop]))
  all_goals rfl

/-- An ignored bit is no part of the discriminant. -/
theorem discriminant_clearIgnored (w : Word) : discriminant (clearIgnored w) = discriminant w := by
  unfold clearIgnored
  split_ifs with h0 hshr
  · rw [discriminant_of_lowByte (by simp), discriminant_of_lowByte (by simp [h0])]
    simp [h0]
  · obtain ⟨h8, hn⟩ := hshr
    rw [discriminant_of_lowNibble (by simp), discriminant_of_lowNibble h8]
    simp [hn]
  · rfl

/-! ## The rows of the opcode map -/

theorem mask_of_mem {row : OpcodeRow} (h : row ∈ opcodeMap) : row.mask = discriminantMask (opField row.pattern) := by
  revert row; decide

/-- A word matches a row exactly where its discriminant is the row's pattern. -/
theorem matches_iff {row : OpcodeRow} (hrow : row ∈ opcodeMap) (w : Word) :
    w &&& row.mask = row.pattern ↔ discriminant w = row.pattern := by
  rw [mask_of_mem hrow]
  constructor
  · intro h
    have hop := congrArg opField h
    rw [opField_and_discriminantMask] at hop
    rwa [discriminant, hop]
  · intro h
    have hop := congrArg opField h
    rw [opField_discriminant] at hop
    rwa [← hop]

theorem opcodeMap_pattern_ne : opcodeMap.Pairwise fun r q => r.pattern ≠ q.pattern := by decide

theorem decodeWord_pattern {row : OpcodeRow} (h : row ∈ opcodeMap) :
    (decodeWord row.pattern).map mnemonic = .ok row.mnemonic := by
  revert row; decide

theorem exists_row_of_decodeWord {w : Word} {i : Instr} (h : decodeWord w = .ok i) :
    ∃ row ∈ opcodeMap, row.mnemonic = mnemonic i ∧ w &&& row.mask = row.pattern := by
  obtain ⟨-, row, hrow, hname, hmatch⟩ := encodesInRow i
  refine ⟨row, hrow, hname, (matches_iff hrow w).mpr ?_⟩
  calc discriminant w = discriminant (encode i) := by rw [encode_of_decodeWord h, discriminant_clearIgnored]
    _ = row.pattern := (matches_iff hrow _).mp hmatch

theorem decodeWord_of_matches {row : OpcodeRow} (hrow : row ∈ opcodeMap) {w : Word} (h : w &&& row.mask = row.pattern) :
    ∃ i, decodeWord w = .ok i ∧ mnemonic i = row.mnemonic := by
  have hname : (decodeWord w).map mnemonic = .ok row.mnemonic := by
    rw [← decodeWord_discriminant, (matches_iff hrow w).mp h, decodeWord_pattern hrow]
  cases hd : decodeWord w with
  | ok i => exact ⟨i, rfl, by simpa [hd, Except.map] using hname⟩
  | error r => simp [hd, Except.map] at hname

theorem opcodeMap_disjoint :
    opcodeMap.Pairwise fun r q => ∀ w : Word, ¬(w &&& r.mask = r.pattern ∧ w &&& q.mask = q.pattern) := by
  refine opcodeMap_pattern_ne.imp_of_mem fun hr hq hne w ⟨hwr, hwq⟩ => hne ?_
  exact ((matches_iff hr w).mp hwr).symm.trans ((matches_iff hq w).mp hwq)

/-! ## The illegal words (R78, R79) -/

theorem decodeFamily0_error (w : Word) : (∃ r, decodeFamily0 w = .error r) ↔ nnField w ∉ [0xE0#8, 0xEE#8] := by
  unfold decodeFamily0
  split <;> simp_all

theorem decodeFamily8_error (w : Word) :
    (∃ r, decodeFamily8 w = .error r) ↔ nField w ∉ [0x0#4, 0x2#4, 0x3#4, 0x4#4, 0x5#4, 0x6#4] := by
  unfold decodeFamily8
  split <;> simp_all

theorem decodeFamilyE_error (w : Word) : (∃ r, decodeFamilyE w = .error r) ↔ nnField w ∉ [0x9E#8, 0xA1#8] := by
  unfold decodeFamilyE
  split <;> simp_all

theorem decodeFamilyF_error (w : Word) :
    (∃ r, decodeFamilyF w = .error r) ↔
      nnField w ∉ [0x07#8, 0x15#8, 0x18#8, 0x1E#8, 0x29#8, 0x33#8, 0x55#8, 0x65#8] := by
  unfold decodeFamilyF
  split <;> simp_all

/-- Three families hold no instruction (R77). -/
theorem mem_unassigned_families {op : Nibble}
    (h : op ∉ [0x0#4, 0x1#4, 0x2#4, 0x3#4, 0x4#4, 0x6#4, 0x7#4, 0x8#4, 0xA#4, 0xC#4, 0xD#4, 0xE#4, 0xF#4]) :
    op ∈ [0x5#4, 0x9#4, 0xB#4] := by
  revert op; decide

end Sys2Proof

namespace Sys2Proof.Proofs

/-- Settles O1: the two bytes make the encoding's word again, and that decodes to the instruction, format by format. -/
theorem decodeOfEncode : Obligations.DecodeOfEncode :=
  fun i rest => ⟨wellFormed_eq_true i, decode_bytesOfWord_of_ok (decodeWord_encode i) rest⟩

/-- Settles O2: a decoded word is re-encoded with its ignored bits cleared, and an encoding is plain. -/
theorem encodeOfDecode : Obligations.EncodeOfDecode := by
  intro w i h
  constructor
  · rintro rfl
    exact plainWord_encode i
  · intro hplain
    rw [encode_of_decodeWord h, clearIgnored_of_plain hplain]

/-- Settles O3: the word, its encoding and the pattern of the row they match have one discriminant. -/
theorem decoderFollowsOpcodeMap : Obligations.DecoderFollowsOpcodeMap :=
  ⟨rfl, fun _ _ => exists_row_of_decodeWord, fun _ _ hrow => decodeWord_of_matches hrow, opcodeMap_disjoint⟩

/-- Settles O4: the decoder reads no ignored bit, whichever value it has, and the encoder lays out 0 there. -/
theorem ignoredBits : Obligations.IgnoredBits := by
  refine ⟨fun x => ⟨?_, ?_⟩, fun x y => ?_, plainWord_encode⟩
  · change decodeWord (encodeX 0x0 x 0xE0) = _
    simp [decodeWord, decodeFamily0]
  · change decodeWord (encodeX 0x0 x 0xEE) = _
    simp [decodeWord, decodeFamily0]
  · change decodeWord (encodeXYN 0x8 x y 0x6) = _
    simp [decodeWord, decodeFamily8]

/-- Settles O5: a family is illegal in its own words, wholly, or not at all, and `decodeWord` splits on the family. -/
theorem illegalWords : Obligations.IllegalWords := by
  intro w
  unfold decodeWord
  split
  case h_1 hop => simp [hop, decodeFamily0_error]
  case h_8 hop => simp [hop, decodeFamily8_error]
  case h_12 hop => simp [hop, decodeFamilyE_error]
  case h_13 hop => simp [hop, decodeFamilyF_error]
  case h_14 =>
    have hop := mem_unassigned_families (op := opField w) (by simp_all)
    simp [hop]
  all_goals
    next hop => simp [hop]

/-- Settles O6: each word evaluates. -/
theorem sampleWordsDecode : Obligations.SampleWordsDecode := ⟨rfl, rfl, rfl, rfl, rfl, rfl⟩

end Sys2Proof.Proofs

/-! Control transfer (spec/40_flow.md): where RET, JP, CALL, SE and SNE leave PC and the stack, and a program that has ended. -/

namespace Sys2Proof.Machine

open Sys2Proof.Safety

/-! ## What an answer leaves alone, and what an exception answers -/

theorem sameBut_jump {parts : List Part} (h : .pc ∈ parts) (s : State) (a : Word) : sameBut parts s (s.jump a) := by
  simp [sameBut_iff, h]

/-- Taking an exception answers the state with its record, whatever is asked of the record beside its kind and PC (R183). -/
theorem raises_raise {k : ErrKind} {w : Word} {b : BitVec 17} {s : State} {ok : ErrRecord → Prop}
    (hok : ok { kind := k, pc := s.pc, word := w, badaddr := b }) : raises k s (raise k w b s) ok :=
  ⟨_, rfl, rfl, rfl, hok⟩

/-! ## A skip (spec/30_encoding.md R80) -/

theorem State.skipIf_pc_eq_add_four {s : State} {c : Bool} : (s.skipIf c).pc = s.pc + 4#16 ↔ c = true := by
  cases c <;> simp

theorem State.skipIf_pc_eq_add_two {s : State} {c : Bool} : (s.skipIf c).pc = s.pc + 2#16 ↔ c = false := by
  cases c <;> simp

/-! ## The stack -/

theorem stackFull_eq_false_iff_stackHasRoom {s : State} : stackFull s.params.stackDepth s.stack = false ↔ stackHasRoom s := by
  unfold stackHasRoom
  cases s.params.stackDepth <;> simp [stackFull]

theorem stackFull_of_stackAtDepth {s : State} (h : stackAtDepth s) : stackFull s.params.stackDepth s.stack = true := by
  obtain ⟨d, hd, hlen⟩ := Option.map_eq_some_iff.mp h
  simp [stackFull, hd, hlen]

/-- R93: CALL on a full stack raises. -/
theorem execCall_of_full {s : State} (h : stackFull s.params.stackDepth s.stack = true) (nnn : Addr) :
    execCall nnn s = raiseOverflow s := if_pos h

/-- R91: RET on the empty stack raises. -/
theorem execRet_of_nil {s : State} (h : s.stack = []) : execRet s = raiseUnderflow s := by
  simp [execRet, State.pop, h]

/-- RET takes the state of a pushed entry to the entry, wherever PC had gone, and the stack is what it was before the push. -/
theorem execRet_jump_push (s : State) (a b : Word) : execRet ((s.push a).jump b) = .next (s.jump a) :=
  execRet_of_append rfl

/-! ## The CPU's step on an instruction it executes -/

theorem cpuStep_of_executes {s : State} {i : Instr} (h : executes s i) : cpuStep s = exec i s := by
  obtain ⟨herr, hpc, hdec⟩ := h
  simp [cpuStep, herr, State.fetch_eq_some hpc, dispatchWord, hdec]

/-! ## A program that has ended (spec/70_reset_and_hazards.md R218) -/

theorem ended_iff {s : State} : ended s = true ↔ ∃ nnn, executes s (.jp nnn) ∧ target nnn = s.pc := by
  simp only [ended, executes, Bool.and_eq_true, decide_eq_true_eq, ← BitVec.toNat_inj, target_toNat]
  constructor
  · rintro ⟨⟨herr, hpc⟩, hword⟩
    split at hword
    · next nnn hdec => exact ⟨nnn, ⟨herr, hpc, hdec⟩, of_decide_eq_true hword⟩
    · cases hword
  · rintro ⟨nnn, ⟨herr, hpc, hdec⟩, htarget⟩
    simp [herr, hpc, hdec, htarget]

/-- R92: a JP to its own address answers the same state. -/
theorem cpuStep_of_ended {s : State} (h : ended s = true) : cpuStep s = .next s := by
  obtain ⟨nnn, hrun, htarget⟩ := ended_iff.mp h
  calc cpuStep s = .next (s.jump (target nnn)) := cpuStep_of_executes hrun
    _ = .next (s.jump s.pc) := by rw [htarget]
    _ = .next s := rfl

/-- Where the timer moves, it takes exactly one off DT. -/
theorem timerMove_dt_toNat {s : State} (h : s.mover = .timer) : (timerMove s).dt.toNat + 1 = s.dt.toNat := by
  have hdt : s.dt.toNat ≠ 0 := fun hz => (State.mover_timer h).1 (BitVec.eq_of_toNat_eq hz)
  simp only [timerMove, State.endMove_dt, State.tick_dt, tickDown_toNat]
  omega

end Sys2Proof.Machine

namespace Sys2Proof.Proofs

open Sys2Proof.Machine Sys2Proof.Safety

/-- Settles O33: CALL pushes PC + 2 and RET jumps to what was pushed; the CPU, running at nnn, executes the RET that stands there. -/
theorem callThenRet : Obligations.CallThenRet := by
  intro nnn s hroom
  refine ⟨_, s.jump (s.pc + 2#16), execCall_of_room (stackFull_eq_false_iff_stackHasRoom.mpr hroom) nnn,
    execRet_jump_push s _ _, rfl, sameBut_jump (by simp) s _, fun herr hpc hdec => ?_⟩
  have hrun : executes ((s.push (s.pc + 2#16)).jump (target nnn)) .ret := ⟨herr, by simpa using hpc, hdec⟩
  exact (cpuStep_of_executes hrun).trans (execRet_jump_push s _ _)

/-- Settles O59: the CPU jumps to where it is, and the timer takes one off DT; neither touches PC, memory or ERR. -/
theorem endedIsFixedPoint : Obligations.EndedIsFixedPoint := by
  intro s h
  refine ⟨cpuStep_of_ended h, ?_⟩
  cases hm : s.mover with
  | timer =>
    exact ⟨timerMove s, step_next.mpr (.inl ⟨hm, rfl⟩), by simp [sameBut_iff, timerMove], h, .inr (timerMove_dt_toNat hm)⟩
  | cpu =>
    exact ⟨s.endRequest.endMove, step_next.mpr (.inr ⟨hm, s, cpuStep_of_ended h, rfl⟩), by simp [sameBut_iff], h, .inl rfl⟩

/-- Settles O30: RET pops the last entry into PC where there is one, and raises where there is none. -/
theorem retResult : Obligations.RetResult := by
  refine ⟨fun s st a hst => ⟨_, execRet_of_append hst, rfl, rfl, by simp [sameBut_iff, State.byteAt]⟩, fun s hst => ?_⟩
  rw [exec, execRet_of_nil hst]
  exact raises_raise rfl

/-- Settles O31: JP is a jump to its target and nothing else. -/
theorem jpResult : Obligations.JpResult :=
  fun nnn s => ⟨s.jump (target nnn), rfl, target_toNat nnn, sameBut_jump (by simp) s _⟩

/-- Settles O32: CALL pushes and jumps where the stack is not full, and raises where it is. -/
theorem callResult : Obligations.CallResult := by
  refine ⟨fun nnn s hroom => ⟨_, execCall_of_room (stackFull_eq_false_iff_stackHasRoom.mpr hroom) nnn, target_toNat nnn, rfl,
    by simp [sameBut_iff]⟩, fun nnn s hdepth => ?_⟩
  rw [exec, execCall_of_full (stackFull_of_stackAtDepth hdepth)]
  exact raises_raise rfl

/-- Settles O34: SE is a skip on equality. -/
theorem seResult : Obligations.SeResult :=
  fun x nn s => ⟨s.skipIf (decide (s.reg x = nn)), rfl, fun h => State.skipIf_pc_eq_add_four.mpr (decide_eq_true h),
    fun h => State.skipIf_pc_eq_add_two.mpr (decide_eq_false h), sameBut_jump (by simp) s _⟩

/-- Settles O35: SNE is a skip on inequality, so its condition is true exactly where that of SE is false. -/
theorem sneResult : Obligations.SneResult := by
  intro x nn s
  refine ⟨s.skipIf (decide (s.reg x ≠ nn)), rfl, fun h => State.skipIf_pc_eq_add_four.mpr (decide_eq_true h),
    fun h => State.skipIf_pc_eq_add_two.mpr (decide_eq_false (not_not_intro h)), sameBut_jump (by simp) s _,
    s.skipIf (decide (s.reg x = nn)), rfl, ?_⟩
  rw [State.skipIf_pc_eq_add_four, State.skipIf_pc_eq_add_two]
  simp

end Sys2Proof.Proofs

/-! Registers and arithmetic (spec/41_alu.md): what a register write, with or without the flag after it, makes of a state, and the
results and flags as numbers. -/

namespace Sys2Proof.Machine

open Sys2Proof.Safety

/-! ## A register write, then PC + 2 -/

theorem State.reg_setReg_self (s : State) (x : Nibble) (b : Byte) : (s.setReg x b).reg x = b := by
  simp

theorem regsBut_setReg (s : State) (x : Nibble) (b : Byte) : regsBut [x] s (s.setReg x b) := by
  intro r hr
  rw [State.reg_setReg, if_neg (by simpa using hr)]

/-- What an instruction that writes `V[x]` without a flag leaves unchanged, and where it leaves PC. -/
theorem setReg_advance_frame (s : State) (x : Nibble) (b : Byte) :
    regsBut [x] s (s.setReg x b).advance ∧ (s.setReg x b).advance.pc = s.pc + 2#16 ∧
      sameBut [.v, .pc] s (s.setReg x b).advance :=
  ⟨regsBut_setReg s x b, rfl, by simp [sameBut_iff]⟩

/-! ## A register write, the flag after it, then PC + 2 (spec/41_alu.md R100) -/

/-- The flag is written last, so it is what VF holds even where VF is the destination (D6). -/
@[simp] theorem State.reg_setRegFlag (s : State) (x r : Nibble) (b : Byte) (c : Bool) :
    (s.setRegFlag x b c).reg r = if r = vf then flagByte c else if r = x then b else s.reg r := by
  simp only [State.setRegFlag, State.setFlag, State.reg_setReg]

theorem State.reg_setRegFlag_vf (s : State) (x : Nibble) (b : Byte) (c : Bool) :
    (s.setRegFlag x b c).reg vf = flagByte c := by
  simp

theorem State.reg_setRegFlag_of_ne {x : Nibble} (hx : x ≠ vf) (s : State) (b : Byte) (c : Bool) :
    (s.setRegFlag x b c).reg x = b := by
  simp [hx]

theorem regsBut_setRegFlag (s : State) (x : Nibble) (b : Byte) (c : Bool) : regsBut [x, vf] s (s.setRegFlag x b c) := by
  intro r hr
  obtain ⟨hx, hvf⟩ : r ≠ x ∧ r ≠ vf := by simpa using hr
  simp [hx, hvf]

/-- What an instruction that writes `V[x]` and then the flag leaves unchanged, and where it leaves PC. -/
theorem setRegFlag_advance_frame (s : State) (x : Nibble) (b : Byte) (c : Bool) :
    regsBut [x, vf] s (s.setRegFlag x b c).advance ∧ (s.setRegFlag x b c).advance.pc = s.pc + 2#16 ∧
      sameBut [.v, .pc] s (s.setRegFlag x b c).advance :=
  ⟨regsBut_setRegFlag s x b c, rfl, by simp [sameBut_iff, State.setRegFlag, State.setFlag]⟩

/-! ## Results and flags as numbers (spec/10_state.md R27) -/

/-- SUB's result is the difference modulo 256, the subtrahend the greater or not. -/
theorem toNat_sub_eq_emod (a b : Byte) : ((a - b).toNat : Int) = (a.toNat - b.toNat : Int) % 256 := by
  have hb := b.isLt
  rw [BitVec.toNat_sub]
  omega

theorem flagByte_carryOut (a b : Byte) : flagByte (carryOut a b) = if 255 < a.toNat + b.toNat then 1#8 else 0#8 := by
  simp [flagByte, carryOut]

theorem flagByte_notBorrow (a b : Byte) : flagByte (notBorrow a b) = if b.toNat ≤ a.toNat then 1#8 else 0#8 := by
  simp [flagByte, notBorrow]

theorem flagByte_toNat (c : Bool) : (flagByte c).toNat = c.toNat := by
  cases c <;> rfl

theorem shiftedOut_toNat (a : Byte) : (shiftedOut a).toNat = a.toNat % 2 := by
  rw [shiftedOut, BitVec.getLsbD, Nat.toNat_testBit, pow_zero, Nat.div_one]

/-! ## The random source (spec/60_exceptions.md R198) -/

/-- Where the source is scripted it presents the head of the script. -/
theorem State.rngNow_of_cons {s : State} {b : Byte} {rest : List Byte} (h : s.env.rng = b :: rest) : s.rngNow = b := by
  rw [State.rngNow, h, List.headD_cons]

end Sys2Proof.Machine

namespace Sys2Proof.Proofs

open Sys2Proof.Machine

/-- Settles O36: LD is a register write of the immediate. -/
theorem ldResult : Obligations.LdResult :=
  fun x nn s => ⟨_, rfl, s.reg_setReg_self x nn, setReg_advance_frame s x nn⟩

/-- Settles O37: ADD is a register write of the 8-bit sum. -/
theorem addImmediateResult : Obligations.AddImmediateResult := by
  intro x nn s
  refine ⟨_, rfl, ?_, setReg_advance_frame s x _⟩
  rw [State.advance_reg, State.reg_setReg_self, BitVec.toNat_add]

/-- Settles O38: each of the three is a register write, and the bits of its result are those of the operation. -/
theorem movAndXorResult : Obligations.MovAndXorResult := by
  intro x y s
  refine ⟨⟨_, rfl, s.reg_setReg_self x _, setReg_advance_frame s x _⟩, ⟨_, rfl, fun k => ?_, setReg_advance_frame s x _⟩,
    ⟨_, rfl, fun k => ?_, setReg_advance_frame s x _⟩⟩
  · rw [State.advance_reg, State.reg_setReg_self, BitVec.getLsbD_and]
  · rw [State.advance_reg, State.reg_setReg_self, BitVec.getLsbD_xor]

/-- Settles O39: the 8-bit sum is written first and the carry last. -/
theorem addrResult : Obligations.AddrResult := by
  intro x y s
  refine ⟨_, rfl, fun hx => ?_, ?_, setRegFlag_advance_frame s x _ _⟩
  · rw [State.advance_reg, State.reg_setRegFlag_of_ne hx, BitVec.toNat_add]
  · rw [State.advance_reg, State.reg_setRegFlag_vf, flagByte_carryOut]

/-- Settles O40: the 8-bit difference is written first and not-borrow last. -/
theorem subResult : Obligations.SubResult := by
  intro x y s
  refine ⟨_, rfl, fun hx => ?_, ?_, setRegFlag_advance_frame s x _ _⟩
  · rw [State.advance_reg, State.reg_setRegFlag_of_ne hx, toNat_sub_eq_emod]
  · rw [State.advance_reg, State.reg_setRegFlag_vf, flagByte_notBorrow]

/-- Settles O41: the shifted byte is written first and the bit shifted out last. -/
theorem shrResult : Obligations.ShrResult := by
  intro x s
  refine ⟨_, rfl, fun hx => ?_, ?_, setRegFlag_advance_frame s x _ _⟩
  · rw [State.advance_reg, State.reg_setRegFlag_of_ne hx, BitVec.toNat_ushiftRight, Nat.shiftRight_one]
  · rw [State.advance_reg, State.reg_setRegFlag_vf, flagByte_toNat, shiftedOut_toNat]

/-- Settles O42: RND is a register write with one byte of the source consumed, and a script presents its head. -/
theorem rndResult : Obligations.RndResult := by
  intro x nn s
  have hreg := s.reg_setReg_self x (s.rngNow &&& nn)
  refine ⟨_, rfl, hreg, regsBut_setReg s x _, rfl, exec_sameBut_mayWrite (i := .rnd x nn) rfl, rfl,
    fun b rest hscript => ⟨?_, ?_⟩⟩
  · rw [State.advance_reg, State.drawRng_reg, hreg, State.rngNow_of_cons hscript]
  · simp [hscript]

end Sys2Proof.Proofs

/-! The address register and memory (spec/42_index_memory.md): what a write of I, a store of a block and a load of a block make of
a state, and the exception where the block is not all in memory. -/

namespace Sys2Proof.Machine

open Sys2Proof.Safety

/-! ## A write of I, then PC + 2 -/

/-- What an instruction that writes I alone leaves unchanged, and where it leaves PC. -/
theorem setI_advance_frame (s : State) (a : Word) :
    (s.setI a).advance.pc = s.pc + 2#16 ∧ sameBut [.i, .pc] s (s.setI a).advance :=
  ⟨rfl, by simp [sameBut_iff]⟩

@[simp] theorem State.regWide_toNat (s : State) (x : Nibble) : (s.regWide x).toNat = (s.reg x).toNat :=
  BitVec.toNat_setWidth_of_le (by decide)

/-- I moved past a block in memory does not wrap. -/
theorem State.moveI_i_toNat {s : State} {n : Nat} (h : s.i.toNat + n ≤ 4096) : (s.moveI n).i.toNat = s.i.toNat + n := by
  simp only [State.moveI_i, BitVec.toNat_add, BitVec.toNat_ofNat]
  omega

/-! ## A block that is not all in memory (spec/60_exceptions.md R187) -/

theorem withBlock_of_outside {n : Nat} {s : State} (hn : 0 < n) (h : 4096 < s.i.toNat + n) (rest : State) :
    withBlock n s rest = raiseData s := by
  rcases withBlock_cases n s rest with ⟨hin, _⟩ | ⟨_, hr⟩
  · omega
  · exact hr

/-- An instruction that checks its block at I raises OutOfBounds where the block leaves memory. -/
theorem raisesData_of_outside {i : Instr} {n : Nat} {s rest : State} (hexec : exec i s = withBlock n s rest) (hn : 0 < n)
    (h : 4096 < s.i.toNat + n) : raisesData i s := by
  rw [raisesData, hexec, withBlock_of_outside hn h]
  exact raises_raise ⟨rfl, badAddr_toNat s.i⟩

/-! ## The bytes of a stored block -/

theorem bytesOutside_storeBytes {s : State} (hwf : Memory.wf s.params.font s.mem = true) {a : Nat} {bs : List Byte}
    (ha : a + bs.length ≤ 4096) : bytesOutside a bs.length s (s.storeBytes a bs) := by
  intro b hb
  rw [State.byteAt_storeBytes hwf ha, if_neg (by omega)]

/-- Inside a stored block stand its bytes in order. -/
theorem State.byteAt_storeBytes_add {s : State} (hwf : Memory.wf s.params.font s.mem = true) {a k : Nat} {bs : List Byte}
    (ha : a + bs.length ≤ 4096) (hk : k < bs.length) : (s.storeBytes a bs).byteAt (a + k) = bs[k] := by
  rw [State.byteAt_storeBytes hwf ha, if_pos (by omega), Nat.add_sub_cancel_left, List.getD_eq_getElem _ _ hk]

/-- The decimal digits of a byte (R124), each as a byte. -/
theorem digits_toNat (v : Byte) :
    (digits v)[0].toNat = v.toNat / 100 ∧ (digits v)[1].toNat = v.toNat / 10 % 10 ∧ (digits v)[2].toNat = v.toNat % 10 := by
  have hv := v.isLt
  exact ⟨Nat.mod_eq_of_lt (by omega), Nat.mod_eq_of_lt (by omega), Nat.mod_eq_of_lt (by omega)⟩

/-! ## The registers of a loaded block (R126) -/

theorem State.reg_loadRegs_bytesAt (s : State) (a n : Nat) (r : Nibble) :
    (s.loadRegs (s.bytesAt a n)).reg r = if r.toNat < n then s.byteAt (a + r.toNat) else s.reg r := by
  rw [State.reg_loadRegs, State.bytesAt_length]
  split
  · next hr => simp [State.bytesAt, hr]
  · rfl

end Sys2Proof.Machine

namespace Sys2Proof.Proofs

open Sys2Proof.Machine Sys2Proof.Safety

/-- Settles O43: LDI is a write of I with its target. -/
theorem ldiResult : Obligations.LdiResult :=
  fun nnn s => ⟨_, rfl, target_toNat nnn, setI_advance_frame s _⟩

/-- Settles O44: ADDI is a write of I with the 16-bit sum. -/
theorem addiResult : Obligations.AddiResult := by
  intro x s
  refine ⟨_, rfl, ?_, setI_advance_frame s _⟩
  rw [State.advance_i, State.setI_i, BitVec.toNat_add, State.regWide_toNat]

/-- Settles O45: FONT is a write of I with a 16-bit product, and five times a byte does not wrap. -/
theorem fontResult : Obligations.FontResult := by
  intro x s
  have hx := (s.reg x).isLt
  refine ⟨_, rfl, ?_, setI_advance_frame s _⟩
  rw [State.advance_i, State.setI_i, BitVec.toNat_mul, State.regWide_toNat]
  exact Nat.mod_eq_of_lt (by simp only [Config.glyphBytes, BitVec.toNat_ofNat]; omega)

/-- Settles O46: BCD stores the block of the three digits, where it is in memory. -/
theorem bcdResult : Obligations.BcdResult := by
  refine ⟨fun x s hwf hin => ?_, fun x s hout => raisesData_of_outside (n := 3) rfl (by decide) (by omega)⟩
  have hend : s.i.toNat + (digits (s.reg x)).length ≤ 4096 := by rw [digits_length]; omega
  have hstored (k : Nat) (hk : k < 3) :
      (s.storeBytes s.i.toNat (digits (s.reg x))).byteAt (s.i.toNat + k) = (digits (s.reg x))[k] :=
    State.byteAt_storeBytes_add hwf hend hk
  obtain ⟨hhundreds, htens, hunits⟩ := digits_toNat (s.reg x)
  exact ⟨_, withBlock_of_inMemory (.inr hend) _, (congrArg _ (hstored 0 (by decide))).trans hhundreds,
    (congrArg _ (hstored 1 (by decide))).trans htens, (congrArg _ (hstored 2 (by decide))).trans hunits,
    bytesOutside_storeBytes hwf hend, rfl, by simp [sameBut_iff]⟩

/-- Settles O47: DUMP stores the block of the first x + 1 registers, where it is in memory. -/
theorem dumpResult : Obligations.DumpResult := by
  refine ⟨fun x s hwf hin => ?_, fun x s hout =>
    raisesData_of_outside (n := blockLength x) rfl (Nat.succ_pos _) (Nat.succ_lt_succ hout)⟩
  have hn : blockLength x ≤ 16 := x.isLt
  have hend : s.i.toNat + blockLength x ≤ 4096 := Nat.succ_le_succ hin
  have hlen := s.regsUpTo_length (blockLength x) hn
  have houtside := bytesOutside_storeBytes hwf (hlen.symm ▸ hend)
  rw [hlen] at houtside
  exact ⟨_, withBlock_of_inMemory (.inr hend) _,
    fun k hk => State.byteAt_storeRegs hwf hn hend (Nat.lt_succ_of_le hk), houtside,
    State.moveI_i_toNat hend, rfl, by simp [sameBut_iff]⟩

/-- Settles O48: LOAD puts the block of x + 1 bytes into the registers from V0 up, where it is in memory. -/
theorem loadResult : Obligations.LoadResult := by
  refine ⟨fun x s hin => ?_, fun x s hout =>
    raisesData_of_outside (n := blockLength x) rfl (Nat.succ_pos _) (Nat.succ_lt_succ hout)⟩
  have hend : s.i.toNat + blockLength x ≤ 4096 := Nat.succ_le_succ hin
  refine ⟨_, withBlock_of_inMemory (.inr hend) _, fun k => ?_, State.moveI_i_toNat hend, rfl, by simp [sameBut_iff]⟩
  simp [State.reg_loadRegs_bytesAt, blockLength]

/-- Settles O49: LOAD reads (O48) at the addresses where DUMP left the registers (O47), and both move I alike. -/
theorem dumpThenLoad : Obligations.DumpThenLoad := by
  intro x s v hwf hin
  obtain ⟨t, ht, hstored, _, hti, _, _⟩ := dumpResult.1 x s hwf hin
  obtain ⟨u, hu, hloaded, hui, _, _⟩ := loadResult.1 x { t with v := v, i := s.i } hin
  refine ⟨t, u, ht, hu, BitVec.eq_of_toNat_eq (hui.trans hti.symm), fun k => ?_⟩
  rw [hloaded k]
  exact ite_congr rfl (hstored k) fun _ => rfl

end Sys2Proof.Proofs

/-! The display (spec/43_display.md): where a pixel lands, what plotting pixels makes of the plane, and the results of CLS and DRW. -/

namespace Sys2Proof.Machine

open Sys2Proof.Safety

/-! ## Where a pixel lands (R142) -/

/-- A pixel is placed on the cell it lands on, and skipped where it lands on none. -/
theorem cellOf_eq_some_iff {policy : Config.DrawPolicy} {x y : Nat} {py : Fin 32} {px : Fin 64} :
    cellOf policy x y = some (py, px) ↔ lands policy x y py px = true := by
  cases policy with
  | wrap => simp [cellOf, lands, Fin.ext_iff]
  | clip =>
    simp only [cellOf, lands, Option.ite_none_right_eq_some, Option.some.injEq, Prod.mk.injEq, Fin.ext_iff, Fin.val_ofNat,
      Bool.and_eq_true, decide_eq_true_eq]
    omega

/-- Under either policy the cell a pixel lands on has its coordinates modulo the size of the display. -/
theorem mod_eq_of_lands {policy : Config.DrawPolicy} {x y : Nat} {py : Fin 32} {px : Fin 64}
    (h : lands policy x y py px = true) : y % 32 = py.val ∧ x % 64 = px.val := by
  cases policy with
  | wrap => simpa [lands] using h
  | clip =>
    simp only [lands, Bool.and_eq_true, decide_eq_true_eq] at h
    omega

/-! ## Flipping sets of cells (R143) -/

@[simp] theorem Plane.flip_cell (p : Plane) (y y' : Fin 32) (x x' : Fin 64) :
    (p.flip y x).cell y' x' = (p.cell y' x' ^^ (decide (y = y') && decide (x = x'))) := by
  by_cases hy : y = y'
  · subst hy
    by_cases hx : x = x'
    · subst hx; simp [Plane.cell, Plane.flip]
    · simp [Plane.cell, Plane.flip, hx, Fin.val_ne_of_ne hx]
  · simp [Plane.cell, Plane.flip, hy, Fin.val_ne_of_ne hy]

theorem Plane.cells_eq_of_cell {p q : Plane} (h : ∀ y x, p.cell y x = q.cell y x) : p.cells = q.cells :=
  Vector.ext fun y hy => Vector.ext fun x hx => h ⟨y, hy⟩ ⟨x, hx⟩

/-- A cell of a set is lit after the set was flipped exactly where it was unlit before. -/
theorem lit_after_flip_iff {lit covered : Bool} : (lit ^^ covered) = true ∧ covered = true ↔ lit = false ∧ covered = true := by
  cases lit <;> cases covered <;> decide

/-- `q` is `p` with exactly the cells of `S` flipped, and COLL set besides where one of them was lit. -/
structure Plane.FlipsTo (p q : Plane) (S : Fin 32 → Fin 64 → Bool) : Prop where
  cell : ∀ y x, q.cell y x = (p.cell y x ^^ S y x)
  coll : q.coll = true ↔ p.coll = true ∨ ∃ y x, p.cell y x = true ∧ S y x = true

theorem Plane.FlipsTo.refl (p : Plane) : p.FlipsTo p fun _ _ => false where
  cell := by simp
  coll := by simp

/-- No cell is flipped twice: two flips in turn are one of both sets where these share no cell. -/
theorem Plane.FlipsTo.trans {p q r : Plane} {S T : Fin 32 → Fin 64 → Bool} (hpq : p.FlipsTo q S) (hqr : q.FlipsTo r T)
    (hdisj : ∀ y x, S y x = true → T y x = false) : p.FlipsTo r fun y x => S y x || T y x where
  cell y x := by
    rw [hqr.cell, hpq.cell, Bool.xor_assoc]
    cases hS : S y x with
    | false => simp
    | true => simp [hdisj y x hS]
  coll := by
    have hcell (y : Fin 32) (x : Fin 64) (hT : T y x = true) : q.cell y x = p.cell y x := by
      have hS : S y x = false := by
        by_contra hS
        simp [hdisj y x (by simpa using hS)] at hT
      simp [hpq.cell, hS]
    have hlit : (∃ y x, q.cell y x = true ∧ T y x = true) ↔ ∃ y x, p.cell y x = true ∧ T y x = true :=
      exists_congr fun y => exists_congr fun x => and_congr_left fun hT => by rw [hcell y x hT]
    simp only [hqr.coll, hpq.coll, hlit, Bool.or_eq_true, and_or_left, exists_or, or_assoc]

/-- A loop of flips that never meet on a cell flips the cells of all of them. -/
theorem Plane.FlipsTo.foldl {α : Type} {f : Plane → α → Plane} {S : α → Fin 32 → Fin 64 → Bool} {l : List α}
    (hf : ∀ a ∈ l, ∀ q : Plane, q.FlipsTo (f q a) (S a))
    (hdisj : l.Pairwise fun a b => ∀ y x, S a y x = true → S b y x = false) (p : Plane) :
    p.FlipsTo (l.foldl f p) fun y x => l.any fun a => S a y x := by
  induction l generalizing p with
  | nil => exact .refl p
  | cons a l ih =>
    obtain ⟨hhead, htail⟩ := List.pairwise_cons.mp hdisj
    have hrest := ih (fun b hb => hf b (List.mem_cons_of_mem a hb)) htail (f p a)
    refine (hf a List.mem_cons_self p).trans hrest fun y x hS => ?_
    simpa using fun b hb => hhead b hb y x hS

/-! ## The renderer's loops (R140, R143) -/

/-- A pixel of 1 flips the one cell it lands on, if any. -/
theorem Plane.plot_flips (policy : Config.DrawPolicy) (x y : Nat) (p : Plane) :
    p.FlipsTo (p.plot policy x y) (lands policy x y) := by
  have hlands (py : Fin 32) (px : Fin 64) : lands policy x y py px = decide (cellOf policy x y = some (py, px)) := by
    simp [cellOf_eq_some_iff]
  rw [funext₂ hlands, Plane.plot]
  cases cellOf policy x y with
  | none => simpa using Plane.FlipsTo.refl p
  | some c =>
    constructor
    · simp [Prod.ext_iff]
    · simp [Plane.flip, Prod.ext_iff]

/-- The cells the pixels of 1 of one sprite row land on. -/
def rowCovers (policy : Config.DrawPolicy) (x0 y : Nat) (b : Byte) (py : Fin 32) (px : Fin 64) : Bool :=
  (List.range 8).any fun c => b.getLsbD (7 - c) && lands policy (x0 + c) y py px

theorem covers_eq_any_rowCovers (policy : Config.DrawPolicy) (x0 y0 : Nat) (sprite : List Byte) (py : Fin 32) (px : Fin 64) :
    covers policy x0 y0 sprite py px =
      (List.range sprite.length).any fun r => rowCovers policy x0 (y0 + r) (sprite.getD r 0#8) py px := rfl

theorem mod_eq_of_rowCovers {policy : Config.DrawPolicy} {x0 y : Nat} {b : Byte} {py : Fin 32} {px : Fin 64}
    (h : rowCovers policy x0 y b py px = true) : y % 32 = py.val := by
  obtain ⟨c, _, hc⟩ := List.any_eq_true.mp h
  exact (mod_eq_of_lands (Bool.and_eq_true_iff.mp hc).2).1

/-- The eight columns of a row are different modulo 64. -/
theorem Plane.drawRow_flips (policy : Config.DrawPolicy) (x0 y : Nat) (b : Byte) (p : Plane) :
    p.FlipsTo (p.drawRow policy x0 y b) (rowCovers policy x0 y b) := by
  refine Plane.FlipsTo.foldl (fun c _ q => ?_) ?_ p
  · cases b.getLsbD (7 - c) with
    | false => exact .refl q
    | true => simpa using q.plot_flips policy (x0 + c) y
  · refine List.pairwise_lt_range.imp_of_mem fun {c d} _ hd hlt py px hc => Bool.eq_false_iff.mpr fun hd' => ?_
    have hcx := (mod_eq_of_lands (Bool.and_eq_true_iff.mp hc).2).2
    have hdx := (mod_eq_of_lands (Bool.and_eq_true_iff.mp hd').2).2
    have hd8 := List.mem_range.mp hd
    omega

/-- The recursion on the sprite, as a loop over its row numbers. -/
theorem Plane.drawRows_eq_foldl (policy : Config.DrawPolicy) (x0 y0 : Nat) (sprite : List Byte) (p : Plane) :
    Plane.drawRows policy x0 y0 sprite p =
      (List.range sprite.length).foldl (fun q r => q.drawRow policy x0 (y0 + r) (sprite.getD r 0#8)) p := by
  induction sprite generalizing y0 p with
  | nil => rfl
  | cons b bs ih =>
    rw [Plane.drawRows, ih, List.length_cons, List.range_succ_eq_map, List.foldl_cons, List.foldl_map]
    simp [Nat.add_right_comm, Nat.add_assoc]

/-- At most fifteen rows are different modulo 32. -/
theorem Plane.drawRows_flips (policy : Config.DrawPolicy) (x0 y0 : Nat) {sprite : List Byte} (h : sprite.length ≤ 15) (p : Plane) :
    p.FlipsTo (Plane.drawRows policy x0 y0 sprite p) (covers policy x0 y0 sprite) := by
  rw [Plane.drawRows_eq_foldl, funext₂ (covers_eq_any_rowCovers policy x0 y0 sprite)]
  refine Plane.FlipsTo.foldl (fun r _ q => q.drawRow_flips policy x0 (y0 + r) (sprite.getD r 0#8)) ?_ p
  refine List.pairwise_lt_range.imp_of_mem fun {r t} _ ht hlt py px hr => Bool.eq_false_iff.mpr fun ht' => ?_
  have hry := mod_eq_of_rowCovers hr
  have hty := mod_eq_of_rowCovers ht'
  have htlen := List.mem_range.mp ht
  omega

/-! ## DRW (R143) -/

/-- The sprite of the statements is the block the renderer reads. -/
theorem spriteOf_eq_bytesAt (s : State) (n : Nibble) : spriteOf s n = s.bytesAt s.i.toNat n.toNat := rfl

theorem spriteOf_length_le (s : State) (n : Nibble) : (spriteOf s n).length ≤ 15 := by
  rw [spriteOf_eq_bytesAt, State.bytesAt_length]
  exact Nat.le_of_lt_succ n.isLt

/-- The sprite is a matter of I and of memory alone. -/
theorem spriteOf_congr {s t : State} (hi : t.i = s.i) (hmem : ∀ a, t.byteAt a = s.byteAt a) (n : Nibble) :
    spriteOf t n = spriteOf s n := by
  simp [spriteOf, hi, hmem]

theorem flagByte_eq_one_iff {c : Bool} : flagByte c = 1#8 ↔ c = true := by
  cases c <;> decide

end Sys2Proof.Machine

namespace Sys2Proof.Proofs

open Sys2Proof.Machine Sys2Proof.Safety

/-- Settles O53: the loops flip the covered cells, none of them twice, on a plane whose COLL was cleared. -/
theorem drawXorsSprite : Obligations.DrawXorsSprite := by
  intro policy x0 y0 sprite p h
  obtain ⟨hcell, hcoll⟩ := Plane.drawRows_flips policy x0 y0 h { p with coll := false }
  exact ⟨hcell, hcoll.trans (by simp [Plane.cell])⟩

/-- Settles O54: DRW renders the sprite (O53) and writes COLL to VF, where its block is in memory. -/
theorem drwResult : Obligations.DrwResult := by
  refine ⟨fun x y n s hin => ?_, fun x y n s hn hout => raisesData_of_outside rfl hn (by omega)⟩
  obtain ⟨hcell, hcoll⟩ := drawXorsSprite s.params.drawPolicy (s.reg x).toNat (s.reg y).toNat (spriteOf s n) s.plane
    (spriteOf_length_le s n)
  have hblock : n.toNat = 0 ∨ s.i.toNat + n.toNat ≤ 4096 := hin.imp (congrArg _) (by omega)
  refine ⟨_, withBlock_of_inMemory hblock _, hcell, hcoll, (State.reg_setReg ..).trans (if_pos rfl), fun r hr => ?_, rfl,
    by simp [sameBut_iff, State.setFlag]⟩
  · have hvf : r ≠ vf := by simpa using hr
    simp [State.setFlag, hvf]

/-- Settles O55: after the first DRW the second one covers the same cells, as V[x], V[y], I and memory are unchanged (O54). -/
theorem drawTwiceRestores : Obligations.DrawTwiceRestores := by
  intro x y n s hx hy hin
  obtain ⟨t, ht, htcell, htcoll, htvf, htregs, -, htframe⟩ := drwResult.1 x y n s hin
  have hi : t.i = s.i := htframe .i (by decide)
  have hmem : ∀ a, t.byteAt a = s.byteAt a := htframe .mem (by decide)
  have hparams : t.params = s.params := htframe .params (by decide)
  obtain ⟨u, hu, hucell, hucoll, huvf, -, -, -⟩ := drwResult.1 x y n t (by rwa [hi])
  simp only [hparams, htregs x (by simpa using hx), htregs y (by simpa using hy), spriteOf_congr hi hmem, htcell,
    lit_after_flip_iff] at hucell hucoll
  refine ⟨t, u, ht, hu, Plane.cells_eq_of_cell fun py px => ?_, ?_, ?_⟩
  · simp [hucell]
  · rw [htvf, ← htcoll]
    exact flagByte_eq_one_iff
  · rw [huvf, ← hucoll]
    exact flagByte_eq_one_iff

/-- Settles O51: the plane CLS leaves has the cells of the blank one, and its row of the table names what else it writes. -/
theorem clsResult : Obligations.ClsResult :=
  fun _ => ⟨_, rfl, Plane.blank_cell, rfl, exec_sameBut_mayWrite (i := .cls) rfl⟩

/-- Settles O52: under WRAP both coordinates are reduced, under CLIP they are in range already or the pixel is skipped. -/
theorem pixelPlacement : Obligations.PixelPlacement := by
  refine ⟨fun x y => ⟨_, rfl, rfl, rfl⟩, fun x y h => ?_, fun x y h => if_neg h⟩
  exact ⟨_, if_pos h, Nat.mod_eq_of_lt (Nat.lt_succ_of_le h.2), Nat.mod_eq_of_lt (Nat.lt_succ_of_le h.1)⟩

end Sys2Proof.Proofs

/-! Keys and the timer's instructions (spec/44_key_timer.md): when a key is held, and what a step uses up of the KEY script. -/

namespace Sys2Proof.Machine

open Sys2Proof.Safety

/-! ## The key held (spec/44_key_timer.md R166) -/

/-- All 8 bits of the register count: a key is its number widened to a byte (D10). -/
theorem pressed_keyNow_iff {x : Nibble} {s : State} : pressed s.keyNow (s.reg x) = true ↔ keyHeld x s := by
  unfold keyHeld
  cases s.keyNow with
  | none => simp [pressed]
  | some k =>
    rw [pressed, decide_eq_true_iff, ← BitVec.toNat_inj, BitVec.toNat_setWidth_of_le (by decide)]
    simp

theorem pressed_keyNow_eq_false_iff {x : Nibble} {s : State} : pressed s.keyNow (s.reg x) = false ↔ ¬keyHeld x s :=
  Bool.eq_false_iff.trans (not_congr pressed_keyNow_iff)

/-- Where KEY is scripted it is the head of the script. -/
theorem State.keyNow_of_cons {s : State} {key : Option Nibble} {rest : List (Option Nibble)} (h : s.env.keys = key :: rest) :
    s.keyNow = key := by
  rw [State.keyNow, h, List.headD_cons]

/-! ## KEY's script and the count of STEP requests (spec/60_exceptions.md R197) -/

/-- RND alone writes the environment, and there the random source alone. -/
theorem exec_keys_steps {i : Instr} {s t : State} (h : exec i s = .next t) :
    t.env.keys = s.env.keys ∧ t.env.steps = s.env.steps := by
  by_cases henv : .env ∈ mayWrite i
  · cases i with
    | rnd x nn => cases h; exact ⟨rfl, rfl⟩
    | _ => simp [mayWrite] at henv
  · have hkeep : t.env = s.env := exec_sameBut_mayWrite h .env henv
    rw [hkeep]
    exact ⟨rfl, rfl⟩

theorem cpuStep_keys_steps {s t : State} (h : cpuStep s = .next t) :
    t.env.keys = s.env.keys ∧ t.env.steps = s.env.steps := by
  rcases cpuStep_cases s with ⟨_, _, hc⟩ | ⟨_, _, hc⟩ | ⟨_, _, _, _, hc⟩ | ⟨_, _, i, _, hc⟩ <;> rw [hc] at h
  · cases h; exact ⟨rfl, rfl⟩
  · rw [raise_next h]; exact ⟨rfl, rfl⟩
  · rw [raise_next h]; exact ⟨rfl, rfl⟩
  · exact exec_keys_steps h

end Sys2Proof.Machine

namespace Sys2Proof.Proofs

open Sys2Proof.Machine Sys2Proof.Safety

/-- Settles O56: SKP and SKNP are skips on `pressed` and its negation, and the end of a STEP request alone moves the script on. -/
theorem keySkips : Obligations.KeySkips := by
  refine ⟨fun x s => ⟨?skp, ?sknp⟩, fun x s key rest hscript => ?script, fun s t h => ?step⟩
  case skp =>
    exact ⟨s.skipIf (pressed s.keyNow (s.reg x)), rfl,
      fun hheld => State.skipIf_pc_eq_add_four.mpr (pressed_keyNow_iff.mpr hheld),
      fun hfree => State.skipIf_pc_eq_add_two.mpr (pressed_keyNow_eq_false_iff.mpr hfree), sameBut_jump (by simp) s _⟩
  case sknp =>
    exact ⟨s.skipIf (!pressed s.keyNow (s.reg x)), rfl,
      fun hfree => State.skipIf_pc_eq_add_four.mpr (congrArg not (pressed_keyNow_eq_false_iff.mpr hfree)),
      fun hheld => State.skipIf_pc_eq_add_two.mpr (congrArg not (pressed_keyNow_iff.mpr hheld)),
      sameBut_jump (by simp) s _⟩
  case script => rw [keyHeld, State.keyNow_of_cons hscript, Option.map_eq_some_iff]
  case step =>
    obtain ⟨hm, rfl⟩ | ⟨hm, u, hu, rfl⟩ := step_next.mp h
    · exact ⟨fun hcpu => (nomatch hm.symm.trans hcpu), fun _ => ⟨rfl, rfl⟩⟩
    · obtain ⟨hkeys, hsteps⟩ := cpuStep_keys_steps hu
      exact ⟨fun _ => ⟨congrArg List.tail hkeys, congrArg (· + 1) hsteps⟩, fun htimer => (nomatch hm.symm.trans htimer)⟩

/-- Settles O57: GETDT is a register write of DT. -/
theorem getdtResult : Obligations.GetdtResult :=
  fun x s => ⟨_, rfl, s.reg_setReg_self x s.dt, setReg_advance_frame s x s.dt⟩

/-- Settles O58: SETDT is a write of DT, and SETST an advance alone, which is a jump to PC + 2. -/
theorem setdtAndSetstResult : Obligations.SetdtAndSetstResult :=
  fun x s => ⟨⟨_, rfl, s.setDt_dt (s.reg x), rfl, exec_sameBut_mayWrite (i := .setdt x) rfl⟩,
    s.advance, rfl, rfl, sameBut_jump (by simp) s _⟩

end Sys2Proof.Proofs

/-! The step and its exceptions (spec/60_exceptions.md R180 to R188): which of its ways the CPU's step goes, that the conditions
of the table of R187 are exactly those that raise, and that ERR, once written, stays. -/

namespace Sys2Proof.Machine

open Sys2Proof.Safety

/-! ## Each way of the CPU's step under its condition (R180) -/

/-- Stage 0: in the halted state a STEP request does nothing (R184, R196). -/
theorem cpuStep_of_halted {s : State} (h : s.err ≠ none) : cpuStep s = .next s := by
  obtain ⟨e, he⟩ := Option.ne_none_iff_exists'.mp h
  rw [cpuStep, he]

/-- Stage 1: the fetch raises (R181). -/
theorem cpuStep_of_fetchFault {s : State} (herr : s.err = none) (hpc : 4095 ≤ s.pc.toNat) : cpuStep s = raiseFetch s := by
  simp [cpuStep, herr, State.fetch_eq, Nat.not_lt.mpr hpc]

/-- Stage 3: the dispatch raises (R182). -/
theorem cpuStep_of_illegal {s : State} {r : Reject} (herr : s.err = none) (hpc : s.pc.toNat + 1 ≤ 4095)
    (hdec : decodeWord s.wordAtPc = .error r) : cpuStep s = raiseDecode s.wordAtPc s := by
  simp [cpuStep, herr, State.fetch_eq_some hpc, dispatchWord, hdec]

/-! ## A move of the machine (R194) -/

theorem step_of_timer {s : State} (h : s.mover = .timer) : step s = .next (timerMove s) :=
  step_next.mpr (.inl ⟨h, rfl⟩)

theorem step_of_cpu {s : State} (h : s.mover = .cpu) : step s = cpuMove s := by
  rw [step, cycle, h]

theorem State.mover_eq_cpu_iff {s : State} : s.mover = .cpu ↔ s.dt = 0#8 ∨ s.agentDue = .cpu := by
  by_cases hdt : s.dt = 0#8 <;> simp [State.mover, hdt]

/-- A move of a halted machine is a tick or an idle STEP request. -/
theorem step_of_halted {s : State} (h : s.err ≠ none) : ∃ t, step s = .next t ∧ sameBut [.dt, .env] s t := by
  cases hm : s.mover with
  | timer => exact ⟨_, step_of_timer hm, by simp [sameBut_iff, timerMove]⟩
  | cpu => exact ⟨_, step_next.mpr (.inr ⟨hm, s, cpuStep_of_halted h, rfl⟩), by simp [sameBut_iff]⟩

/-! ## An instruction keeps ERR, or writes nothing else (R183, R185) -/

theorem withBlock_err_kept_or_only {n : Nat} {s rest t : State} (h : withBlock n s rest = .next t) (hrest : rest.err = s.err) :
    t.err = s.err ∨ ∃ e, t = { s with err := some e } := by
  obtain rfl | hraised := withBlock_next h
  · exact .inl hrest
  · exact .inr hraised

theorem exec_err_kept_or_only {i : Instr} {s t : State} (h : exec i s = .next t) :
    t.err = s.err ∨ ∃ e, t = { s with err := some e } := by
  cases i with
  | ret =>
    obtain ⟨_, _, _, rfl⟩ | hraised := execRet_next h
    · exact .inl rfl
    · exact .inr hraised
  | call nnn =>
    obtain ⟨_, rfl⟩ | hraised := execCall_next h
    · exact .inl rfl
    · exact .inr hraised
  | drw | bcd | dump | load => exact withBlock_err_kept_or_only h rfl
  | cls | jp | se | sne | ld | add | mov | and | xor | addr | sub | shr | ldi | rnd | skp | sknp | getdt | setdt | setst
  | addi | font => exact .inl (exec_sameBut_mayWrite h .err (by simp [mayWrite]))

theorem cpuStep_err_kept_or_only {s t : State} (h : cpuStep s = .next t) :
    t.err = s.err ∨ ∃ e, t = { s with err := some e } := by
  rcases cpuStep_cases s with ⟨_, _, hc⟩ | ⟨_, _, hc⟩ | ⟨_, _, _, _, hc⟩ | ⟨_, _, i, _, hc⟩ <;> rw [hc] at h
  · cases h; exact .inl rfl
  · exact .inr ⟨_, raise_next h⟩
  · exact .inr ⟨_, raise_next h⟩
  · exact exec_err_kept_or_only h

/-! ## What the table names, raises (R187)

That a raise is one the table names, with the record it asks for, is `cpuStep_answersExplained`; here is the other direction. -/

theorem exec_raises_of_execCause {i : Instr} {s : State} {k : ErrKind} (h : execCause i s = some k) :
    ∃ e, exec i s = .next { s with err := some e } := by
  cases i with
  | ret =>
    have hst : s.stack.length = 0 := (Option.ite_none_right_eq_some.mp h).1
    exact ⟨_, execRet_of_nil (List.eq_nil_of_length_eq_zero hst)⟩
  | call nnn =>
    have hdepth : stackAtDepth s := (Option.ite_none_right_eq_some.mp h).1
    exact ⟨_, execCall_of_full (stackFull_of_stackAtDepth hdepth) nnn⟩
  | bcd x =>
    have hout : 4095 < s.i.toNat + 2 := (Option.ite_none_right_eq_some.mp h).1
    exact ⟨_, withBlock_of_outside (by omega) (by omega) _⟩
  | dump x | load x =>
    have hout : 4095 < s.i.toNat + x.toNat := (Option.ite_none_right_eq_some.mp h).1
    exact ⟨_, withBlock_of_outside (Nat.succ_pos _) (Nat.succ_lt_succ hout) _⟩
  | drw x y n =>
    obtain ⟨hn, hout⟩ : 0 < n.toNat ∧ 4095 < s.i.toNat + n.toNat - 1 := (Option.ite_none_right_eq_some.mp h).1
    exact ⟨_, withBlock_of_outside hn (by omega) _⟩
  | cls | jp | se | sne | ld | add | mov | and | xor | addr | sub | shr | ldi | rnd | skp | sknp | getdt | setdt | setst
  | addi | font => cases h

theorem cpuStep_raises_of_stepCause {s : State} {k : ErrKind} (herr : s.err = none) (h : stepCause s = some k) :
    ∃ e, cpuStep s = .next { s with err := some e } := by
  rcases cpuStep_cases s with ⟨e, he, _⟩ | ⟨_, _, hc⟩ | ⟨_, _, _, _, hc⟩ | ⟨_, hpc, i, hdec, hc⟩
  · simp [herr] at he
  · exact ⟨_, hc⟩
  · exact ⟨_, hc⟩
  · have hcause : execCause i s = some k := by simpa [stepCause, Nat.not_le.mpr hpc, hdec] using h
    rw [hc]
    exact exec_raises_of_execCause hcause

/-- Where the CPU's step leaves ERR none, the table names no kind. -/
theorem stepCause_eq_none_of_cpuStep {s t : State} (herr : s.err = none) (h : cpuStep s = .next t) (ht : t.err = none) :
    stepCause s = none := by
  by_contra hcause
  obtain ⟨k, hk⟩ := Option.ne_none_iff_exists'.mp hcause
  obtain ⟨e, he⟩ := cpuStep_raises_of_stepCause herr hk
  cases he.symm.trans h
  cases ht

/-- The numeric code of a record is its kind's (D21). -/
theorem errCode_toNat (e : ErrRecord) : (errCode (some e)).toNat = kindCode e.kind := by
  rw [errCode]
  cases e.kind <;> rfl

end Sys2Proof.Machine

namespace Sys2Proof.Proofs

open Sys2Proof.Machine Sys2Proof.Safety

/-- Settles O16: ERR stays none exactly where the table names nothing, and a record that is written fits the state. -/
theorem exceptionCauses : Obligations.ExceptionCauses := by
  intro s herr hfits
  obtain ⟨t, ht⟩ := cpuStep_answers s
  refine ⟨t, ht, ?_⟩
  rcases cpuStep_answersExplained herr hfits ht with hnone | ⟨e, rfl, hpc, hword, hkind, hbad⟩
  · rw [stepCause_eq_none_of_cpuStep herr ht hnone, hnone]
    exact ⟨rfl, rfl⟩
  · rw [hkind]
    exact ⟨e, rfl, rfl, errCode_toNat e, hpc, fun hlt => hword.resolve_right (by omega), hbad⟩

/-- Settles O15: a step that did not leave ERR alone wrote it and nothing else. -/
theorem raiseChangesOnlyErr : Obligations.RaiseChangesOnlyErr := by
  intro s t herr h hraised
  rcases cpuStep_err_kept_or_only h with hkept | ⟨e, rfl⟩
  · exact absurd (hkept.trans herr) hraised
  · rfl

/-- Settles O17: every instruction answers a state, and in the halted state neither agent's move writes ERR. -/
theorem stepAlwaysAnswers : Obligations.StepAlwaysAnswers := by
  intro s
  by_cases herr : s.err = none
  · obtain ⟨t, ht⟩ := step_answers s
    exact ⟨t, ht, fun hhalted => absurd herr hhalted⟩
  · obtain ⟨t, ht, hsame⟩ := step_of_halted herr
    exact ⟨t, ht, fun _ => hsame .err (by simp)⟩

/-- Settles O10: the decoded instruction runs in the CPU's step, and the machine's step is the move of the agent that moves. -/
theorem stepRunsDecoded : Obligations.StepRunsDecoded := by
  refine ⟨fun s i herr hpc hdec => ?_, fun s => step_of_timer, fun s => State.mover_eq_cpu_iff⟩
  have hrun : cpuStep s = exec i s := cpuStep_of_executes ⟨herr, hpc, hdec⟩
  exact ⟨hrun, fun hm => by rw [step_of_cpu hm, cpuMove, hrun]⟩

/-- Settles O12: the fetch raises, and max(PC, 4096) is PC from 4096 on. -/
theorem fetchFault : Obligations.FetchFault := by
  intro s herr hpc
  rw [cpuStep_of_fetchFault herr hpc]
  refine raises_raise ?_
  rw [badAddr_toNat]
  split <;> omega

/-- Settles O13: the dispatch raises with the fetched word. -/
theorem decodeFault : Obligations.DecodeFault := by
  intro s r herr hpc hdec
  rw [cpuStep_of_illegal herr hpc hdec]
  exact raises_raise rfl

/-- Settles O14: the CPU is idle and the timer writes DT alone. -/
theorem haltedDoesNothing : Obligations.HaltedDoesNothing := by
  intro s e he
  have hhalted : s.err ≠ none := by simp [he]
  exact ⟨cpuStep_of_halted hhalted, step_of_halted hhalted⟩

end Sys2Proof.Proofs

/-! The agents and the inputs (spec/60_exceptions.md R191 to R198): what moves the timer, and which instruction reads which input. -/

namespace Sys2Proof.Machine

open Sys2Proof.Safety

/-! ## The timer (R192, R194) -/

theorem tickDown_iterate_toNat (n : Nat) (d : Byte) : (tickDown^[n] d).toNat = d.toNat - n := by
  induction n with
  | zero => rfl
  | succ n ih => rw [Function.iterate_succ_apply', tickDown_toNat, ih, Nat.sub_sub]

/-- Ticks in a row are one write of DT. -/
theorem State.tick_iterate (n : Nat) (s : State) : State.tick^[n] s = s.setDt (tickDown^[n] s.dt) := by
  induction n with
  | zero => rfl
  | succ n ih => rw [Function.iterate_succ_apply', Function.iterate_succ_apply', ih]; rfl

theorem sameBut_setDt (s : State) (b : Byte) : sameBut [.dt] s (s.setDt b) := by
  simp [sameBut_iff]

/-- SETDT alone writes DT (R194 a). -/
theorem dt_mem_mayWrite_iff {i : Instr} : .dt ∈ mayWrite i ↔ ∃ x, i = .setdt x := by
  cases i <;> simp [mayWrite]

theorem cpuStep_dt {s t : State} (h : cpuStep s = .next t) (hset : ∀ x, ¬executes s (.setdt x)) : t.dt = s.dt := by
  rcases cpuStep_cases s with ⟨_, _, hc⟩ | ⟨_, _, hc⟩ | ⟨_, _, _, _, hc⟩ | ⟨herr, hpc, i, hdec, hc⟩ <;> rw [hc] at h
  · cases h; rfl
  · rw [raise_next h]
  · rw [raise_next h]
  · refine exec_sameBut_mayWrite h .dt fun hmem => ?_
    obtain ⟨x, rfl⟩ := dt_mem_mayWrite_iff.mp hmem
    exact hset x ⟨herr, hpc, hdec⟩

/-! ## The environment under an instruction (R197, R198) -/

/-- RND alone writes the environment, and takes one byte off the random source. -/
theorem exec_env {i : Instr} {s t : State} (h : exec i s = .next t) :
    t.env = s.env ∨ (∃ x nn, i = .rnd x nn) ∧ t.env = s.drawRng.env := by
  by_cases henv : .env ∈ mayWrite i
  · cases i with
    | rnd x nn => cases h; exact .inr ⟨⟨x, nn, rfl⟩, rfl⟩
    | _ => simp [mayWrite] at henv
  · exact .inl (exec_sameBut_mayWrite h .env henv)

/-- The state in an environment changed by `f`. -/
def State.mapEnv (f : Env → Env) (s : State) : State := { s with env := f s.env }

/-- The block check does not look at the environment. -/
theorem withBlock_mapEnv (f : Env → Env) (n : Nat) (s rest : State) :
    withBlock n (s.mapEnv f) (rest.mapEnv f) = onNext (·.mapEnv f) (withBlock n s rest) := by
  rw [withBlock, withBlock, apply_ite (onNext _)]
  rfl

/-- Drawing a byte and writing a register do not meet. -/
theorem State.drawRng_setReg (s : State) (x : Nibble) (b : Byte) : (s.setReg x b).drawRng = s.drawRng.setReg x b := rfl

/-- A change of the environment that keeps the number of STEP requests (a raise reads it, log 5), KEY where the instruction reads
it, and RNG where it draws from it, may be made first or last. -/
theorem exec_mapEnv {i : Instr} {f : Env → Env} {s : State} (hsteps : (f s.env).steps = s.env.steps)
    (hkey : (∃ x, i = .skp x ∨ i = .sknp x) → (s.mapEnv f).keyNow = s.keyNow)
    (hrng : (∃ x nn, i = .rnd x nn) → (s.mapEnv f).rngNow = s.rngNow ∧ (s.mapEnv f).drawRng = s.drawRng.mapEnv f) :
    exec i (s.mapEnv f) = onNext (·.mapEnv f) (exec i s) := by
  have hraise (k : ErrKind) : raise k s.wordAtPc (Config.errBadaddr (f s.env).steps) (s.mapEnv f) =
      onNext (·.mapEnv f) (raise k s.wordAtPc (Config.errBadaddr s.env.steps) s) := by rw [hsteps]; rfl
  cases i with
  | skp x => rw [exec, execSkp, hkey ⟨x, .inl rfl⟩]; rfl
  | sknp x => rw [exec, execSknp, hkey ⟨x, .inr rfl⟩]; rfl
  | rnd x nn =>
    obtain ⟨hnow, hdraw⟩ := hrng ⟨x, nn, rfl⟩
    rw [exec, execRnd, hnow, State.drawRng_setReg, hdraw]
    rfl
  | ret =>
    rcases s.pop_cases with ⟨hst, _⟩ | ⟨st, a, hst, _⟩
    · rw [exec, exec, execRet_of_nil hst, execRet_of_nil (s := s.mapEnv f) hst]
      exact hraise .stackUnderflow
    · rw [exec, exec, execRet_of_append hst, execRet_of_append (s := s.mapEnv f) hst]
      rfl
  | call nnn =>
    cases hfull : stackFull s.params.stackDepth s.stack with
    | true =>
      rw [exec, exec, execCall_of_full hfull, execCall_of_full (s := s.mapEnv f) hfull]
      exact hraise .stackOverflow
    | false =>
      rw [exec, exec, execCall_of_room hfull, execCall_of_room (s := s.mapEnv f) hfull]
      rfl
  | drw | bcd | dump | load =>
    refine Eq.trans ?_ (withBlock_mapEnv f _ s _)
    rfl
  | cls | jp | se | sne | ld | add | mov | and | xor | addr | sub | shr | ldi | getdt | setdt | setst | addi | font => rfl

end Sys2Proof.Machine

namespace Sys2Proof.Proofs

open Sys2Proof.Machine Sys2Proof.Safety

/-- Settles O28: n ticks are one write of DT, which each of them takes one down, floored at zero. -/
theorem ticksFloorAtZero : Obligations.TicksFloorAtZero := by
  refine ⟨fun s => ⟨tickDown_toNat s.dt, sameBut_setDt s _⟩, fun n s => ?_⟩
  rw [State.tick_iterate]
  exact ⟨tickDown_iterate_toNat n s.dt, sameBut_setDt s _⟩

/-- Settles O29: the timer's move takes one off DT, and the CPU's writes it in a SETDT only. -/
theorem timerNeverRises : Obligations.TimerNeverRises := by
  intro s t h hset
  obtain ⟨hm, rfl⟩ | ⟨hm, u, hu, rfl⟩ := step_next.mp h
  · have hdown := timerMove_dt_toNat hm
    exact ⟨by omega, fun _ => hdown, fun hcpu => (nomatch hm.symm.trans hcpu)⟩
  · have hdt : u.dt = s.dt := cpuStep_dt hu fun x => hset x hm
    exact ⟨(congrArg BitVec.toNat hdt).le, fun htimer => (nomatch hm.symm.trans htimer), fun _ => hdt⟩

/-- Settles O22: each clause changes an input the instruction does not read, and RND takes from its own source alone. -/
theorem otherInstructionsReadNoInput : Obligations.OtherInstructionsReadNoInput := by
  refine ⟨fun i s t keys hi h => ⟨?_, ?_⟩, fun i s t rng draws hi h => ⟨?_, ?_⟩, fun i s t agents moves h => ⟨?_, ?_⟩⟩
  · exact (exec_keys_steps h).1
  · have hno : ¬∃ x, i = .skp x ∨ i = .sknp x := fun ⟨x, hx⟩ => hx.elim (hi x).1 (hi x).2
    exact (exec_mapEnv (f := fun e => { e with keys := keys }) rfl (fun hx => absurd hx hno) fun _ => ⟨rfl, rfl⟩).trans
      (congrArg (onNext _) h)
  · rcases exec_env h with henv | ⟨⟨x, nn, hx⟩, _⟩
    · exact congrArg Env.rng henv
    · exact absurd hx (hi x nn)
  · have hno : ¬∃ x nn, i = .rnd x nn := fun ⟨x, nn, hx⟩ => hi x nn hx
    exact (exec_mapEnv (f := fun e => { e with rng := rng, draws := draws }) rfl (fun _ => rfl) fun hx => absurd hx hno).trans
      (congrArg (onNext _) h)
  · rcases exec_env h with henv | ⟨_, henv⟩
    · rw [henv]
    · rw [henv, State.drawRng_env]
  · exact (exec_mapEnv (f := fun e => { e with agents := agents, moves := moves }) rfl (fun _ => rfl)
      fun _ => ⟨rfl, rfl⟩).trans (congrArg (onNext _) h)

end Sys2Proof.Proofs

/-! Reset's first step and the determinism of the step (spec/70_reset_and_hazards.md R212, R227): a state that agrees on the core
is the same state in another environment, and every stage of R180 answers the same core there, if the inputs are the same. -/

namespace Sys2Proof.Machine

open Sys2Proof.Safety

theorem sameCore_mapEnv (f : Env → Env) (s : State) : sameCore s (s.mapEnv f) := rfl

theorem sameCore_iff_mapEnv {s t : State} : sameCore s t ↔ ∃ f, t = s.mapEnv f := by
  constructor
  · intro h
    have hcore : { t with env := s.env } = s := h
    refine ⟨fun _ => t.env, ?_⟩
    rw [← hcore]
    rfl
  · rintro ⟨f, rfl⟩
    exact sameCore_mapEnv f s

/-- Stage 4 of R180. RND draws from two scripts that go on differently, which `exec_mapEnv` does not cover. -/
theorem exec_sameCore {i : Instr} {s t u : State} (hcore : sameCore s t) (hin : sameInputs s t) (h : exec i s = .next u) :
    ∃ u', exec i t = .next u' ∧ sameCore u u' := by
  obtain ⟨f, rfl⟩ := sameCore_iff_mapEnv.mp hcore
  obtain ⟨_, hkey, hrng, hsteps⟩ := hin
  by_cases hi : ∃ x nn, i = .rnd x nn
  · obtain ⟨x, nn, rfl⟩ := hi
    cases h
    refine ⟨_, rfl, ?_⟩
    rw [hrng]
    rfl
  · have hexec : exec i (s.mapEnv f) = onNext (·.mapEnv f) (exec i s) :=
      exec_mapEnv hsteps (fun _ => hkey) fun hx => absurd hx hi
    exact ⟨u.mapEnv f, by rw [hexec, h, onNext], sameCore_mapEnv f u⟩

/-- The stages of R180 before it test ERR, PC and the word at PC, and a raise there writes the free value of the same step. -/
theorem cpuStep_sameCore {s t u : State} (hcore : sameCore s t) (hin : sameInputs s t) (h : cpuStep s = .next u) :
    ∃ u', cpuStep t = .next u' ∧ sameCore u u' := by
  obtain ⟨f, rfl⟩ := sameCore_iff_mapEnv.mp hcore
  have ⟨_, _, _, hsteps⟩ := hin
  rcases cpuStep_cases s with ⟨e, he, hc⟩ | ⟨herr, hpc, hc⟩ | ⟨herr, hpc, _, hdec, hc⟩ | ⟨herr, hpc, i, hdec, hc⟩ <;>
    rw [hc] at h
  · cases h
    have hhalted : (s.mapEnv f).err ≠ none := Option.ne_none_iff_exists'.mpr ⟨e, he⟩
    exact ⟨_, cpuStep_of_halted hhalted, sameCore_mapEnv f s⟩
  · rw [cpuStep_of_fetchFault (s := s.mapEnv f) herr hpc, raiseFetch, hsteps, raise_next h]
    exact ⟨_, rfl, rfl⟩
  · rw [cpuStep_of_illegal (s := s.mapEnv f) herr hpc hdec, raiseDecode, hsteps, raise_next h]
    exact ⟨_, rfl, rfl⟩
  · have hrun : executes (s.mapEnv f) i := ⟨herr, hpc, hdec⟩
    rw [cpuStep_of_executes hrun]
    exact exec_sameCore hcore hin h

theorem State.mover_congr {s t : State} (hcore : sameCore s t) (hin : sameInputs s t) : t.mover = s.mover := by
  obtain ⟨f, rfl⟩ := sameCore_iff_mapEnv.mp hcore
  obtain ⟨hagent, _⟩ := hin
  rw [State.mover, hagent]
  rfl

theorem timerMove_sameCore {s t : State} (hcore : sameCore s t) : sameCore (timerMove s) (timerMove t) := by
  obtain ⟨f, rfl⟩ := sameCore_iff_mapEnv.mp hcore
  rfl

/-- Using up the inputs of a STEP request is no matter of the core. -/
theorem sameCore_endRequest_endMove {s t : State} (hcore : sameCore s t) :
    sameCore s.endRequest.endMove t.endRequest.endMove := by
  obtain ⟨f, rfl⟩ := sameCore_iff_mapEnv.mp hcore
  rfl

/-- Where no image is loaded the bytes at LOAD_ADDR are zero (R36). -/
theorem State.reset_wordAtPc : State.reset.wordAtPc = 0x0000#16 := by decide

/-- No instruction has the word 0x0000 (R77). -/
theorem decodeWord_zero : decodeWord 0x0000#16 = .error (.lowByte 0x0#4 0x00#8) := rfl

end Sys2Proof.Machine

namespace Sys2Proof.Proofs

open Sys2Proof.Machine Sys2Proof.Safety

/-- Settles O21: the same agent moves in both states, and its move answers the same core. -/
theorem stepDependsOnlyOnCoreAndInputs : Obligations.StepDependsOnlyOnCoreAndInputs := by
  intro s t s' hcore hin h
  have hmover : t.mover = s.mover := State.mover_congr hcore hin
  obtain ⟨hm, rfl⟩ | ⟨hm, u, hu, rfl⟩ := step_next.mp h
  · exact ⟨_, step_of_timer (hmover.trans hm), timerMove_sameCore hcore⟩
  · obtain ⟨u', hu', hsame⟩ := cpuStep_sameCore hcore hin hu
    exact ⟨_, step_next.mpr (.inr ⟨hmover.trans hm, u', hu', rfl⟩), sameCore_endRequest_endMove hsame⟩

/-- Settles O8: DT is 0, so the CPU moves, and its dispatch raises on the word 0x0000 at 0x200. -/
theorem emptyImageFirstStep : Obligations.EmptyImageFirstStep := by
  have hmover : State.reset.mover = .cpu := State.mover_eq_cpu_iff.mpr (.inl rfl)
  obtain ⟨e, hstep, hkind, hpc, hword⟩ := decodeFault State.reset _ rfl (by decide) (State.reset_wordAtPc ▸ decodeWord_zero)
  exact ⟨_, e, step_next.mpr (.inr ⟨hmover, _, hstep, rfl⟩), rfl, hkind, hpc, hword.trans State.reset_wordAtPc,
    by simp [sameBut_iff, State.byteAt]⟩

end Sys2Proof.Proofs
